-- ==== Sys2Proof/Word.lean ====
section
/-! DEFINITION. The bit vectors of the machine (00_scope.md R8, R10, R12, R13). -/

namespace Sys2Proof

/-- A register or a storage cell: 8 bits, unsigned (R8). -/
abbrev Byte := BitVec 8

/-- One of the four fields of an instruction: 4 bits (R12, R81). -/
abbrev Nibble := BitVec 4

/-- An instruction word: 16 bits (R12). -/
abbrev Word := BitVec 16

/-- The program counter: 9 bits, unsigned (R13, R29). -/
abbrev Pc := BitVec 9

end Sys2Proof
end

