-- ==== Sys2Proof/Config.lean ====
section
/-! DEFINITION. The implementation parameters of 00_scope.md R8 to R14, with the values this hardware takes.
There is no free value: the spec settles every result (93_implementation_defined.md part 1). -/

namespace Sys2Proof.Config

/-- `MEM_SIZE`: the number of storage cells (R9; decision D1, log entry 3). -/
abbrev memSize : Nat := 256

/-- `NREG`: the number of registers (R11; decision D2, log entry 3). -/
abbrev nreg : Nat := 16

/-- `ROT_MOD`: the rotate amount is taken modulo this (R14; decision D8, log entry 6). -/
abbrev rotMod : Nat := 8

/-- `RESET_REG`: what every register holds after reset (R14, R28; decision D11, log entry 1). -/
abbrev resetReg : Byte := 0x00#8

/-- `RESET_MEM`: what every cell holds after reset, and so what a cell that `Memory` does not list
reads as (R14, R53; decision D12, log entry 2). -/
abbrev resetMem : Byte := 0x00#8

/-- `RESET_PC` (R14, R34). -/
abbrev resetPc : Pc := 0#9

/-- `RESET_HALTED` (R14, R35). -/
abbrev resetHalted : Bool := false

/-- `IMAGE_BASE`: the load address of the program image (R14, R233). -/
abbrev imageBase : Nat := 0

/-- `INSTR_WIDTH` in bytes: how far the program counter advances (R12, R104). -/
abbrev instrBytes : Nat := 2

end Sys2Proof.Config
end

