-- ==== Sys2Proof/Syntax.lean ====
section
/-! DEFINITION. The instructions: one constructor per row of spec/opcode_table.json (30_encoding.md R88).

A register number and a storage address are plain numbers, so that the bounds rules R27, R55 and R56 can be said
of an instruction (log entry 17); `WellFormed` says which of them a word can hold. Literals, branch targets, rotate amounts and
the bits an instruction ignores are bit vectors of their field's width: the ignored bits are kept in the term, so
that no bit of a word is lost (R89). -/

namespace Sys2Proof

/-- The sixteen rows of the opcode table, in the order of their opcode. -/
inductive Instr where
  /-- Opcode 0, no instruction (R172). -/
  | unknown0 (ignored : BitVec 12)
  /-- Opcode 1: `x[r] <- mem[address]` (R120). -/
  | load (r address : Nat)
  /-- Opcode 2: `x[r] <- literal` (R121). -/
  | loadi (r : Nat) (literal : Byte)
  /-- Opcode 3: `mem[address] <- x[r]` (R122). -/
  | store (r address : Nat)
  /-- Opcode 4: `x[t] <- x[s]`, the `r` field ignored (R123). -/
  | move (ignored : Nibble) (s t : Nat)
  /-- Opcode 5: `x[r] <- x[s] + x[t]` (R148). -/
  | add (r s t : Nat)
  /-- Opcode 6, the second ADD (R149; log entry 18). -/
  | add6 (r s t : Nat)
  /-- Opcode 7 (R150). -/
  | or (r s t : Nat)
  /-- Opcode 8 (R151). -/
  | and (r s t : Nat)
  /-- Opcode 9 (R152). -/
  | xor (r s t : Nat)
  /-- Opcode A: `x[r]` rotated right by `amount`, the `t` field ignored (R153). -/
  | rotate (r : Nat) (amount ignored : Nibble)
  /-- Opcode B: branch to `target` if `x[r] = 0` (R170). -/
  | brz (r : Nat) (target : Byte)
  /-- Opcode C (R171). -/
  | halt (ignored : BitVec 12)
  /-- Opcode D, no instruction (R172). -/
  | unknownD (ignored : BitVec 12)
  /-- Opcode E, no instruction (R172). -/
  | unknownE (ignored : BitVec 12)
  /-- Opcode F, no instruction (R172). -/
  | unknownF (ignored : BitVec 12)
  deriving DecidableEq, Repr

/-- The register numbers an instruction reads or writes (R23). -/
def Instr.registers : Instr → List Nat
  | .load r _ => [r]
  | .loadi r _ => [r]
  | .store r _ => [r]
  | .move _ s t => [s, t]
  | .add r s t => [r, s, t]
  | .add6 r s t => [r, s, t]
  | .or r s t => [r, s, t]
  | .and r s t => [r, s, t]
  | .xor r s t => [r, s, t]
  | .rotate r _ _ => [r]
  | .brz r _ => [r]
  | .unknown0 _ => []
  | .halt _ => []
  | .unknownD _ => []
  | .unknownE _ => []
  | .unknownF _ => []

/-- The storage addresses an instruction's execution reads or writes (R58). -/
def Instr.addresses : Instr → List Nat
  | .load _ a => [a]
  | .store _ a => [a]
  | .loadi _ _ => []
  | .move _ _ _ => []
  | .add _ _ _ => []
  | .add6 _ _ _ => []
  | .or _ _ _ => []
  | .and _ _ _ => []
  | .xor _ _ _ => []
  | .rotate _ _ _ => []
  | .brz _ _ => []
  | .unknown0 _ => []
  | .halt _ => []
  | .unknownD _ => []
  | .unknownE _ => []
  | .unknownF _ => []

end Sys2Proof
end

