-- ==== Sys2Proof/WellFormed.lean ====
section
/-! DEFINITION. Which instructions are within the bounds of this hardware: every register number names a register
(10_state.md R21, R27) and every storage address names a cell (20_memory.md R50, R55, R56). -/

namespace Sys2Proof

/-- Every register number is below `NREG` (R27). -/
def Instr.registersInRange (i : Instr) : Bool :=
  i.registers.all fun r => decide (r < Config.nreg)

/-- Every storage address is below `MEM_SIZE` (R55, R56). -/
def Instr.addressesInRange (i : Instr) : Bool :=
  i.addresses.all fun a => decide (a < Config.memSize)

/-- An instruction whose fields fit the fields of a word. -/
def Instr.wellFormed (i : Instr) : Bool :=
  i.registersInRange && i.addressesInRange

end Sys2Proof
end

