-- ==== Sys2Proof/Decode.lean ====
section
/-! DEFINITION. The one instruction format, its decoder and its encoder (30_encoding.md R80 to R91). -/

namespace Sys2Proof

/-! ## Byte order (R60, R82) -/

/-- The word made of two cells: the cell at the lower address is the high byte (R60, R103). -/
def wordOfBytes (first second : Byte) : Word := first ++ second

/-- The byte of a word that stands at the lower address (R60). -/
def highByte (w : Word) : Byte := w.extractLsb' 8 8

/-- The byte of a word that stands at the higher address (R60). -/
def lowByte (w : Word) : Byte := w.extractLsb' 0 8

/-! ## Fields (R81) -/

/-- `op = ir[15:12]`. -/
def opField (w : Word) : Nibble := w.extractLsb' 12 4

/-- `r = ir[11:8]`. -/
def rField (w : Word) : Nibble := w.extractLsb' 8 4

/-- `s = ir[7:4]`. -/
def sField (w : Word) : Nibble := w.extractLsb' 4 4

/-- `t = ir[3:0]`. -/
def tField (w : Word) : Nibble := w.extractLsb' 0 4

/-- `address = s ++ t = ir[7:0]` (R83). -/
def addressField (w : Word) : Byte := sField w ++ tField w

/-- The twelve bits below the opcode, for the rows that read none of them (R89; log entry 7). -/
def belowOpcode (w : Word) : BitVec 12 := w.extractLsb' 0 12

/-! ## Decoding -/

/-- The instruction of a word. The decoder selects on `op` alone, and every word is some row of the table
(R88, R89, R90): the last arm is opcode F, the one value of a nibble the arms before it leave
(`encodeWord (decodeWord w) = w` says that no word is read as another row's). -/
def decodeWord (w : Word) : Instr :=
  match (opField w).toNat with
  | 0x0 => .unknown0 (belowOpcode w)
  | 0x1 => .load (rField w).toNat (addressField w).toNat
  | 0x2 => .loadi (rField w).toNat (addressField w)
  | 0x3 => .store (rField w).toNat (addressField w).toNat
  | 0x4 => .move (rField w) (sField w).toNat (tField w).toNat
  | 0x5 => .add (rField w).toNat (sField w).toNat (tField w).toNat
  | 0x6 => .add6 (rField w).toNat (sField w).toNat (tField w).toNat
  | 0x7 => .or (rField w).toNat (sField w).toNat (tField w).toNat
  | 0x8 => .and (rField w).toNat (sField w).toNat (tField w).toNat
  | 0x9 => .xor (rField w).toNat (sField w).toNat (tField w).toNat
  | 0xA => .rotate (rField w).toNat (sField w) (tField w)
  | 0xB => .brz (rField w).toNat (addressField w)
  | 0xC => .halt (belowOpcode w)
  | 0xD => .unknownD (belowOpcode w)
  | 0xE => .unknownE (belowOpcode w)
  | _ => .unknownF (belowOpcode w)

/-- Why bytes are no instruction. -/
inductive DecodeError where
  /-- Fewer than the two bytes of an instruction are left (R91: every instruction is exactly 16 bits). -/
  | truncated
  deriving DecidableEq, Repr

/-- Decode the instruction at the front of a list of bytes; the bytes after it are given back (R80, R91). -/
def decode : List Byte → Except DecodeError (Instr × List Byte)
  | first :: second :: rest => .ok (decodeWord (wordOfBytes first second), rest)
  | [_] => .error .truncated
  | [] => .error .truncated

/-! ## Encoding (the nibbles `op r s t` of R92) -/

/-- A register number as the 4-bit field that holds it. -/
def regField (r : Nat) : Nibble := BitVec.ofNat 4 r

/-- The word of an instruction. A field that does not fit is cut to its width: the word stands for the
instruction only where `Instr.wellFormed` holds. -/
def encodeWord : Instr → Word
  | .unknown0 x => 0x0#4 ++ x
  | .load r a => 0x1#4 ++ regField r ++ BitVec.ofNat 8 a
  | .loadi r v => 0x2#4 ++ regField r ++ v
  | .store r a => 0x3#4 ++ regField r ++ BitVec.ofNat 8 a
  | .move x s t => 0x4#4 ++ x ++ regField s ++ regField t
  | .add r s t => 0x5#4 ++ regField r ++ regField s ++ regField t
  | .add6 r s t => 0x6#4 ++ regField r ++ regField s ++ regField t
  | .or r s t => 0x7#4 ++ regField r ++ regField s ++ regField t
  | .and r s t => 0x8#4 ++ regField r ++ regField s ++ regField t
  | .xor r s t => 0x9#4 ++ regField r ++ regField s ++ regField t
  | .rotate r n x => 0xA#4 ++ regField r ++ n ++ x
  | .brz r a => 0xB#4 ++ regField r ++ a
  | .halt x => 0xC#4 ++ x
  | .unknownD x => 0xD#4 ++ x
  | .unknownE x => 0xE#4 ++ x
  | .unknownF x => 0xF#4 ++ x

/-- The two bytes of a word as storage holds them, the one at the lower address first (R60). -/
def bytesOfWord (w : Word) : List Byte := [highByte w, lowByte w]

/-- The bytes of an instruction. -/
def encode (i : Instr) : List Byte := bytesOfWord (encodeWord i)

/-- The opcode nibble of an instruction's row (R88). -/
def Instr.opcode : Instr → Nibble
  | .unknown0 _ => 0x0
  | .load _ _ => 0x1
  | .loadi _ _ => 0x2
  | .store _ _ => 0x3
  | .move _ _ _ => 0x4
  | .add _ _ _ => 0x5
  | .add6 _ _ _ => 0x6
  | .or _ _ _ => 0x7
  | .and _ _ _ => 0x8
  | .xor _ _ _ => 0x9
  | .rotate _ _ _ => 0xA
  | .brz _ _ => 0xB
  | .halt _ => 0xC
  | .unknownD _ => 0xD
  | .unknownE _ => 0xE
  | .unknownF _ => 0xF

/-! ## The opcode table's numbering of bits -/

/-- The word whose bits spec/opcode_table.json numbers as `w`. An instruction is one 16-bit word, so the table's
bit 0 is `ir[0]`; bits above `nbits` are 0. -/
def tableWord (nbits w : Nat) : Word := BitVec.ofNat 16 (w % 2 ^ nbits)

/-- What the decoder reads from a table row's word, laid out in bytes as storage holds it; none where the row
would be longer than an instruction is (R91). -/
def decodeTableWord (nbits w : Nat) : Option Instr :=
  if nbits ≤ 16 then
    match decode (bytesOfWord (tableWord nbits w)) with
    | .ok (i, _) => some i
    | .error _ => none
  else none

end Sys2Proof
end

