-- ==== Sys2Proof/Machine/State.lean ====
section
/-! DEFINITION. The state of the block (10_state.md R20), why a step may stop, and the state after reset. -/

namespace Sys2Proof.Machine

/-- Storage (20_memory.md R50): the cells that hold something else than `Config.resetMem`, with strictly rising
addresses. `Memory.wf` (Machine/Ops.lean) is the canonical form (log entry 14). -/
abbrev Memory := List Host.Cell

/-- Why `halted` became true (10_state.md R42). -/
inductive StopCause where
  /-- The machine has not stopped. -/
  | none
  /-- The HALT instruction (R171). -/
  | halt
  /-- An opcode nibble of 0, D, E or F (R172). -/
  | unknownOpcode
  /-- A fetch whose second byte lies outside storage (R102). -/
  | fetchBounds
  /-- A data access outside storage or the register file (R27, R55, R56). -/
  | dataBounds
  deriving DecidableEq, Repr

/-- The state of the block, field by field as R20 lists it. -/
structure State where
  /-- The register file `x[0..15]` (R21). -/
  regs : Vector Byte Config.nreg
  /-- Storage `mem[0..255]` (R50). -/
  mem : Memory
  /-- The program counter (R29). -/
  pc : Pc
  /-- The halted flag (R35). -/
  halted : Bool
  /-- Why `halted` became true (R42). -/
  stopCause : StopCause
  deriving DecidableEq, Repr

/-- Faults of the model: there are none. Every error of this hardware is absorbed into the halted state
(60_exceptions.md R200), which is a next state; no constructor could be raised by anyone, which is safe (log entry 19). -/
inductive Fault where
  deriving DecidableEq, Repr

/-- Refusals of the model. -/
inductive Refusal where
  /-- Raised by `exec` for an instruction that has no meaning yet (safe: nothing can be proved of it). Every
  instruction of this model has its meaning, so `exec` raises it for none. -/
  | notModelled (mnemonic : String)
  deriving DecidableEq, Repr

/-- What a step or an instruction answers. -/
abbrev Result := Host.Outcome State Fault Refusal

/-- The machine right after reset: registers and cells at 0x00, `pc` 0, `halted` false, `stop_cause` NONE
(70_reset_and_hazards.md R230; log entries 1 and 2 for the two fill values). -/
def State.reset : State where
  regs := Vector.replicate Config.nreg Config.resetReg
  mem := []
  pc := Config.resetPc
  halted := Config.resetHalted
  stopCause := .none

end Sys2Proof.Machine
end

