-- ==== Sys2Proof/Machine/Ops.lean ====
section
/-! DEFINITION. The named operations over storage, the register file, the program counter and the stop
(10_state.md R25, R26; 20_memory.md R54 to R56; 00_scope.md R17, R18). -/

namespace Sys2Proof.Machine

/-! ## Storage as data -/

/-- The canonical form: addresses strictly rising, each within storage, and no listed cell equal to what an
unlisted one reads as. Two memories in this form that read alike are the same data (log entry 14). -/
abbrev Memory.wf (m : Memory) : Prop :=
  m.Pairwise (fun c d => c.1 < d.1) ∧ ∀ c ∈ m, c.1 < Config.memSize ∧ c.2 ≠ Config.resetMem

/-- What the cell at an address holds; a cell not listed holds `RESET_MEM` (R53). -/
def Memory.read : Memory → Nat → Byte
  | [], _ => Config.resetMem
  | (b, w) :: m, a => if a = b then w else Memory.read m a

/-- A memory without its entry for an address. -/
def Memory.erase (m : Memory) (a : Nat) : Memory :=
  m.filter fun c => decide (c.1 ≠ a)

/-- An entry put before the first one of a higher address. -/
def Memory.insert : Memory → Nat → Byte → Memory
  | [], a, v => [(a, v)]
  | (b, w) :: m, a, v => if a < b then (a, v) :: (b, w) :: m else (b, w) :: Memory.insert m a v

/-- One cell replaced (R56); writing `RESET_MEM` takes the entry out, which keeps the canonical form. -/
def Memory.write (m : Memory) (a : Nat) (v : Byte) : Memory :=
  if v = Config.resetMem then m.erase a else (m.erase a).insert a v

/-- Bytes written to rising addresses from `base` on. -/
def Memory.writeBytes (m : Memory) (base : Nat) : List Byte → Memory
  | [] => m
  | v :: vs => Memory.writeBytes (m.write base v) (base + 1) vs

/-! ## What the state holds, for statements -/

/-- The value of cell `a`, `mem[a]`. Addresses outside storage hold nothing: `memRead` is the machine's read. -/
def State.cell (s : State) (a : Nat) : Byte := s.mem.read a

/-- The value of register `i`, `x[i]`. Numbers that name no register read as 0 here: `regGet` is the machine's
read. -/
def State.reg (s : State) (i : Nat) : Byte := (s.regs[i]?).getD 0#8

/-! ## The storage interface (R54) -/

/-- `get(address)`, that is `MemRead(a, 1)`: one cell, and none outside storage (R55). -/
def State.memRead (s : State) (a : Nat) : Option Byte :=
  if a < Config.memSize then some (s.cell a) else none

/-- `set(address, value)`, that is `MemWrite(a, 1, v)`: one cell changes, and none outside storage (R56). -/
def State.memWrite (s : State) (a : Nat) (v : Byte) : Option State :=
  if a < Config.memSize then some { s with mem := s.mem.write a v } else none

/-! ## The register-file interface -/

/-- `get(reg)`: one register, and none for a number that names no register (R25, R27). -/
def State.regGet (s : State) (i : Nat) : Option Byte := s.regs[i]?

/-- `set(reg, value)`: one register changes, and none for a number that names no register (R26, R27). -/
def State.regSet (s : State) (i : Nat) (v : Byte) : Option State :=
  if h : i < Config.nreg then some { s with regs := s.regs.set i v h } else none

/-! ## The program counter -/

/-- `pc <- pc + 2` (R104). It is done only after a fetch, when `pc` is at most 254, so the nine bits do not
wrap (R32). -/
def State.advance (s : State) : State := { s with pc := s.pc + BitVec.ofNat 9 Config.instrBytes }

/-- `pc <- target`: the counter is overwritten, nothing is added to it (R31). -/
def State.setPc (s : State) (target : Pc) : State := { s with pc := target }

/-! ## The stop

This hardware takes no exception and returns from none: there is no handler, no saved state and no resumption
(60_exceptions.md R200, R207, R208). The stop below is what it does instead. -/

/-- `raise Stop(cause)`: `halted` and `stop_cause` are written together and nothing else is (R18, R43). -/
def State.raiseStop (s : State) (cause : StopCause) : State :=
  { s with halted := true, stopCause := cause }

/-- The step ends with `raise Stop(cause)`. -/
def stop (cause : StopCause) (s : State) : Result := .next (s.raiseStop cause)

/-- The numeric code of a stop cause (R42). -/
def StopCause.code : StopCause → Nat
  | .none => 0
  | .halt => 1
  | .unknownOpcode => 2
  | .fetchBounds => 3
  | .dataBounds => 4

/-! ## Fetch (40_cycle.md R102, R103) -/

/-- The word at an address: both cells lie in storage, or there is no word (R102). The cell at the lower address
is the high byte (R103). -/
def State.wordAt (s : State) (a : Nat) : Option Word :=
  match s.memRead a, s.memRead (a + 1) with
  | some first, some second => some (first ++ second)
  | some _, none => none
  | none, some _ => none
  | none, none => none

/-- The fetched word `ir` of a step (R103). -/
def State.fetch (s : State) : Option Word := s.wordAt s.pc.toNat

end Sys2Proof.Machine
end

