-- ==== Sys2Proof/Machine/Operands.lean ====
section
/-! DEFINITION. The operand forms of 30_encoding.md R84: register source, register destination, storage source,
storage destination, branch target and rotate amount.

Each access checks its bounds, and an access outside them ends the step with `raise Stop(DATA_BOUNDS)` and nothing
written (10_state.md R27, 20_memory.md R55, R56). The single write of an instruction is the last thing it does, so
every operand is read before it (00_scope.md R19). -/

namespace Sys2Proof.Machine

/-- Go on with the value of a source register (R25, R27). -/
def withReg (i : Nat) (s : State) (k : Byte → Result) : Result :=
  match s.regGet i with
  | some v => k v
  | none => stop .dataBounds s

/-- Go on with the value of a storage cell (R55). -/
def withCell (a : Nat) (s : State) (k : Byte → Result) : Result :=
  match s.memRead a with
  | some v => k v
  | none => stop .dataBounds s

/-- End by writing the destination register (R26, R27). -/
def writeReg (i : Nat) (v : Byte) (s : State) : Result :=
  match s.regSet i v with
  | some t => .next t
  | none => stop .dataBounds s

/-- End by writing a storage cell (R56). -/
def writeCell (a : Nat) (v : Byte) (s : State) : Result :=
  match s.memWrite a v with
  | some t => .next t
  | none => stop .dataBounds s

/-- The shape of ADD, ADD6, OR, AND and XOR: `x[r] <- f(x[s], x[t])`. -/
def binaryOp (f : Byte → Byte → Byte) (r s t : Nat) (st : State) : Result :=
  withReg s st fun a => withReg t st fun b => writeReg r (f a b) st

/-- A branch target as a program counter: `zext_9` of the address field (R86). -/
def branchTarget (target : Byte) : Pc := target.setWidth 9

/-- The rotate amount: the `s` field modulo 8 (R87; decision D8, log entry 6). -/
def rotateAmount (n : Nibble) : Nat := n.toNat % Config.rotMod

end Sys2Proof.Machine
end

