-- ==== Sys2Proof/Machine/Alu.lean ====
section
/-! DEFINITION. The ALU: pure functions of bytes, each with an 8-bit result and no flag (42_alu.md R140 to R147). -/

namespace Sys2Proof.Machine

/-- `alu_add(a, b) = (a + b) mod 256` (R141). -/
def aluAdd (a b : Byte) : Byte := BitVec.ofNat 8 ((a.toNat + b.toNat) % 256)

/-- `alu_or(a, b) = a | b` (R142). -/
def aluOr (a b : Byte) : Byte := a ||| b

/-- `alu_and(a, b) = a & b` (R143). -/
def aluAnd (a b : Byte) : Byte := a &&& b

/-- `alu_xor(a, b) = a ^ b` (R144). -/
def aluXor (a b : Byte) : Byte := a ^^^ b

/-- `alu_rotr(v, n) = ((v >> k) | (v << (8 - k))) mod 256` with `k = n mod 8` (R145;
log entries 6 and 20). -/
def aluRotr (v : Byte) (n : Nibble) : Byte :=
  BitVec.ofNat 8
    (((v.toNat >>> rotateAmount n) ||| (v.toNat <<< (8 - rotateAmount n))) % 256)

end Sys2Proof.Machine
end

