-- ==== Sys2Proof/Machine/Arithmetic.lean ====
section
/-! DEFINITION. ADD, ADD6, OR, AND, XOR and ROTATE (42_alu.md R148 to R153). -/

namespace Sys2Proof.Machine

/-- `x[r] <- alu_add(x[s], x[t])` (R148). -/
def execAdd (r s t : Nat) (st : State) : Result := binaryOp aluAdd r s t st

/-- Opcode 6: `x[r] <- alu_add(x[s], x[t])`, the same effect as opcode 5 (R149). -/
def execAdd6 (r s t : Nat) (st : State) : Result := binaryOp aluAdd r s t st

/-- `x[r] <- alu_or(x[s], x[t])` (R150). -/
def execOr (r s t : Nat) (st : State) : Result := binaryOp aluOr r s t st

/-- `x[r] <- alu_and(x[s], x[t])` (R151). -/
def execAnd (r s t : Nat) (st : State) : Result := binaryOp aluAnd r s t st

/-- `x[r] <- alu_xor(x[s], x[t])` (R152). -/
def execXor (r s t : Nat) (st : State) : Result := binaryOp aluXor r s t st

/-- `x[r] <- alu_rotr(x[r], s)`: one read and one write of the same register (R153, R26); the `t` field is not
read (R89). -/
def execRotate (r : Nat) (amount _ignored : Nibble) (st : State) : Result :=
  withReg r st fun v => writeReg r (aluRotr v amount) st

end Sys2Proof.Machine
end

