-- ==== Sys2Proof/Machine/Flags.lean ====
section
/-! DEFINITION. Flags. The block has no condition codes: no instruction sets a zero, sign, carry or overflow flag
(10_state.md R39, 42_alu.md R147). Its only status state is `halted` and `stop_cause`, which `State.raiseStop`
writes (R40). What the conditional branch tests is a register, here. -/

namespace Sys2Proof.Machine

/-- The condition of BRZ: the whole 8-bit register is 0 (R170). -/
def isZero (v : Byte) : Bool := v == 0x00#8

end Sys2Proof.Machine
end

