-- ==== Sys2Proof/Machine/Control.lean ====
section
/-! DEFINITION. BRZ, HALT and the opcodes that select no instruction (43_control.md). -/

namespace Sys2Proof.Machine

/-- If `x[r] = 0` then `pc <- zext_9(address)`; else `pc` stays at the fetch address plus 2 (R170). -/
def execBrz (r : Nat) (target : Byte) (st : State) : Result :=
  withReg r st fun v => .next (if isZero v then st.setPc (branchTarget target) else st)

/-- `raise Stop(HALT)`; no field is read (R171, R89). -/
def execHalt (_ignored : BitVec 12) (st : State) : Result := stop .halt st

/-- Opcode 0: `raise Stop(UNKNOWN_OPCODE)` (R172). The diagnostic is the stop cause (decision D7). -/
def execUnknown0 (_ignored : BitVec 12) (st : State) : Result := stop .unknownOpcode st

/-- Opcode D: `raise Stop(UNKNOWN_OPCODE)` (R172). -/
def execUnknownD (_ignored : BitVec 12) (st : State) : Result := stop .unknownOpcode st

/-- Opcode E: `raise Stop(UNKNOWN_OPCODE)` (R172). -/
def execUnknownE (_ignored : BitVec 12) (st : State) : Result := stop .unknownOpcode st

/-- Opcode F: `raise Stop(UNKNOWN_OPCODE)` (R172). -/
def execUnknownF (_ignored : BitVec 12) (st : State) : Result := stop .unknownOpcode st

end Sys2Proof.Machine
end

