-- ==== Sys2Proof/Machine/DataMovement.lean ====
section
/-! DEFINITION. LOAD, LOADI, STORE and MOVE (41_data_movement.md). Each meaning is the execute part of a step: `pc`
already holds the fetch address plus 2 (10_state.md R30). -/

namespace Sys2Proof.Machine

/-- `x[r] <- MemRead(address, 1)` (R120). -/
def execLoad (r address : Nat) (st : State) : Result :=
  withCell address st fun v => writeReg r v st

/-- `x[r] <- address`, the literal (R121). -/
def execLoadi (r : Nat) (literal : Byte) (st : State) : Result :=
  writeReg r literal st

/-- `MemWrite(address, 1, x[r])` (R122). -/
def execStore (r address : Nat) (st : State) : Result :=
  withReg r st fun v => writeCell address v st

/-- `x[t] <- x[s]`; the `r` field is not read (R123, R89). -/
def execMove (_ignored : Nibble) (s t : Nat) (st : State) : Result :=
  withReg s st fun v => writeReg t v st

end Sys2Proof.Machine
end

