-- ==== Sys2Proof/Machine/Dispatch.lean ====
section
/-! DEFINITION. One arm per constructor of Instr (40_cycle.md R106). -/

namespace Sys2Proof.Machine

def exec (i : Instr) (s : State) : Host.Outcome State Fault Refusal :=
  match i with
  | .unknown0 x => Sys2Proof.Machine.execUnknown0 x s
  | .load r a => Sys2Proof.Machine.execLoad r a s
  | .loadi r v => Sys2Proof.Machine.execLoadi r v s
  | .store r a => Sys2Proof.Machine.execStore r a s
  | .move x rs rt => Sys2Proof.Machine.execMove x rs rt s
  | .add r rs rt => Sys2Proof.Machine.execAdd r rs rt s
  | .add6 r rs rt => Sys2Proof.Machine.execAdd6 r rs rt s
  | .or r rs rt => Sys2Proof.Machine.execOr r rs rt s
  | .and r rs rt => Sys2Proof.Machine.execAnd r rs rt s
  | .xor r rs rt => Sys2Proof.Machine.execXor r rs rt s
  | .rotate r n x => Sys2Proof.Machine.execRotate r n x s
  | .brz r a => Sys2Proof.Machine.execBrz r a s
  | .halt x => Sys2Proof.Machine.execHalt x s
  | .unknownD x => Sys2Proof.Machine.execUnknownD x s
  | .unknownE x => Sys2Proof.Machine.execUnknownE x s
  | .unknownF x => Sys2Proof.Machine.execUnknownF x s

end Sys2Proof.Machine
end

