-- ==== Sys2Proof/Machine/Cycle.lean ====
section
/-! DEFINITION. The cycle loop's one repetition (40_cycle.md R100 to R107), and the placing of a word where it fetches. -/

namespace Sys2Proof.Machine

/-- One repetition: the halted test, the fetch, the advance of `pc`, decode and execute (R101 to R106). The spec takes
no step in the halted state (R111); there the function answers the state as it is (log entry 8). -/
def cycle (s : State) : Result :=
  if s.halted then .next s
  else
    match s.fetch with
    | none => stop .fetchBounds s
    | some ir => exec (decodeWord ir) s.advance

/-- The state with a word placed where the cycle fetches next: the two bytes at `pc` and `pc + 1` (log entry 11). A
state that cannot fetch is made able to: it is no longer stopped, and a `pc` beyond 254 goes to 0. -/
def State.placeWord (s : State) (ir : Word) : State :=
  let pc : Pc := if s.pc.toNat + 1 < Config.memSize then s.pc else Config.resetPc
  { s with
    mem := s.mem.writeBytes pc.toNat (bytesOfWord ir)
    pc := pc
    halted := false
    stopCause := .none }

end Sys2Proof.Machine
end

