-- ==== Sys2Proof/Machine/Step.lean ====
section
/-! DEFINITION. The machine's step, and the word the host places for it. -/

namespace Sys2Proof.Machine

/-- One step of the machine is one repetition of the cycle loop (40_cycle.md R100). -/
def step (s : State) : Host.Outcome State Fault Refusal := cycle s

/-- The state with a table row's word placed where `step` fetches next: a stand-in for the host's load of an image (log
entry 11). -/
def State.withFetchWord (s : State) (nbits w : Nat) : State := s.placeWord (tableWord nbits w)

end Sys2Proof.Machine
end

