-- ==== Sys2Proof/Machine/Loader.lean ====
section
/-! DEFINITION. The host's side of boot: construct the machine, make an image of a program text, load the image
(70_reset_and_hazards.md R230 to R239). The text format is the host's, not the block's (00_scope.md R6): it is
modelled so that the spec's loader rules have a meaning. -/

namespace Sys2Proof.Machine

/-- Storage with every cell holding one value. -/
def Memory.filled (v : Byte) : Memory := Memory.writeBytes [] 0 (List.replicate Config.memSize v)

/-- Construction with the two open fill values, `RESET_REG` and `RESET_MEM`, as arguments (R14, R230). With 0x00
for both it is `State.reset`. -/
def State.construct (resetReg resetMem : Byte) : State where
  regs := Vector.replicate Config.nreg resetReg
  mem := Memory.filled resetMem
  pc := Config.resetPc
  halted := Config.resetHalted
  stopCause := .none

/-- Why a load fails (R236, R237). The names are the model's (log entry 15). -/
inductive LoadError where
  /-- A line that is not blank does not hold exactly four characters (R234, R236). -/
  | wrongLength
  /-- A character of a line of four is no hexadecimal digit (R236). -/
  | nonHex
  /-- The image has more bytes than storage has cells (R237). -/
  | imageTooLong
  /-- The program file cannot be read (R236). -/
  | unreadable
  deriving DecidableEq, Repr

/-- The program file the host gives the loader: what reading it yields. How a file is read is the host's (00_scope.md
R6); that one cannot be read is a load failure (R236). -/
inductive ProgramFile where
  | unreadable
  | text (chars : List Char)
  deriving DecidableEq, Repr

/-- The result of a load: the failure is reported to the caller beside the state (R238). -/
structure LoadResult where
  error : Option LoadError
  state : State
  deriving DecidableEq, Repr

/-- The image written verbatim from address 0 on (R233); a load of too long an image fails as a whole and leaves
the state as it was (R237, R238; decisions D18, D19). The bytes are not checked, nor is the length even (R239; log entry 13).
The state is any, where the spec describes only the load after construction: that a load into a machine that has run
keeps its registers, `pc`, `halted` and `stop_cause` and the cells beside the image is the model's choice (R241, decision
D25; DESIGN CHOICE, log entry 22). -/
def loadImage (image : List Byte) (s : State) : LoadResult :=
  if image.length ≤ Config.memSize then
    { error := none, state := { s with mem := s.mem.writeBytes Config.imageBase image } }
  else { error := some .imageTooLong, state := s }

/-- The value of a hexadecimal digit: `0`-`9`, `A`-`F`, `a`-`f` (R234). -/
def hexDigit (c : Char) : Option Nibble :=
  let n := c.toNat
  if 48 ≤ n ∧ n ≤ 57 then some (BitVec.ofNat 4 (n - 48))
  else if 65 ≤ n ∧ n ≤ 70 then some (BitVec.ofNat 4 (n - 55))
  else if 97 ≤ n ∧ n ≤ 102 then some (BitVec.ofNat 4 (n - 87))
  else none

/-- The lines of a text: a line ends at a line feed, and a carriage return before the line feed is no part of the
line (R234; decision D16). Text after the last line feed is a line too (log entry 12). -/
def linesOf : List Char → List (List Char)
  | [] => [[]]
  | '\n' :: cs => [] :: linesOf cs
  | '\r' :: '\n' :: cs => [] :: linesOf cs
  | c :: cs =>
    match linesOf cs with
    | [] => [[c]]
    | l :: ls => (c :: l) :: ls

/-- The two bytes of a line of exactly four hexadecimal digits, the first at the lower address (R233, R234). -/
def bytesOfLine : List Char → Except LoadError (List Byte)
  | [c0, c1, c2, c3] =>
    match hexDigit c0, hexDigit c1, hexDigit c2, hexDigit c3 with
    | some d0, some d1, some d2, some d3 => .ok [d0 ++ d1, d2 ++ d3]
    | _, _, _, _ => .error .nonHex
  | _ => .error .wrongLength

/-- The image of the lines of a program; blank lines give no bytes (R233, R235), and the first malformed line
fails the load (R236). -/
def imageOfLines : List (List Char) → Except LoadError (List Byte)
  | [] => .ok []
  | [] :: ls => imageOfLines ls
  | l :: ls =>
    match bytesOfLine l with
    | .error e => .error e
    | .ok bs =>
      match imageOfLines ls with
      | .error e => .error e
      | .ok rest => .ok (bs ++ rest)

/-- The image of a program text. -/
def imageOfText (text : List Char) : Except LoadError (List Byte) := imageOfLines (linesOf text)

/-- The load of a program text: the text made an image and the image loaded; every failure leaves the state as it
was (R238). Its answer in a machine that has already run is the model's choice (log entry 22). -/
def loadText (text : List Char) (s : State) : LoadResult :=
  match imageOfText text with
  | .error e => { error := some e, state := s }
  | .ok image => loadImage image s

/-- `load program` of 10_state.md R45: the text of a file that can be read is loaded, and a file that cannot be read is a
load failure (R236), which leaves the state as it was like every other (R238). Its answer in a machine that has
already run is the model's choice (log entry 22). -/
def loadFile (file : ProgramFile) (s : State) : LoadResult :=
  match file with
  | .unreadable => { error := some .unreadable, state := s }
  | .text chars => loadText chars s

/-- The state a run of a program file starts from: construct, then load (R232). A run does not begin after a load that
fails (R238). -/
def boot (file : ProgramFile) : Option State :=
  match (loadFile file State.reset).error with
  | none => some (loadFile file State.reset).state
  | some _ => none

end Sys2Proof.Machine
end

