-- ==== Sys2Proof/Machine/Observe.lean ====
section
/-! DEFINITION. What the block shows at the end of a run (10_state.md R46, 40_cycle.md R109, R111). -/

namespace Sys2Proof.Machine

/-- The final program counter, the address of the instruction that stopped the machine (R109); none while the run
has not ended (R111), nor in a state with `halted` true and no cause, which no run reaches (R44; log entry 16). -/
def State.finalPc (s : State) : Option Pc :=
  if s.halted then
    match s.stopCause with
    | .none => none
    | .halt => some (s.pc - 2#9)
    | .unknownOpcode => some (s.pc - 2#9)
    | .dataBounds => some (s.pc - 2#9)
    | .fetchBounds => some s.pc
  else none

/-- The outputs of R46. -/
structure Outputs where
  /-- The address of the instruction that stopped the machine (R109). -/
  finalPc : Pc
  /-- The 16 registers in order. -/
  regs : List Byte
  /-- The 256 cells in order. -/
  mem : List Byte
  halted : Bool
  stopCause : StopCause
  deriving DecidableEq, Repr

/-- The outputs, which are defined only when the run has ended (R111). -/
def observe (s : State) : Option Outputs :=
  s.finalPc.map fun p =>
    { finalPc := p
      regs := s.regs.toList
      mem := (List.range Config.memSize).map s.cell
      halted := s.halted
      stopCause := s.stopCause }

end Sys2Proof.Machine
end

