-- ==== Sys2Proof/Safety.lean ====
section
/-! DEFINITION. The terms claims are stated in: the invariant of the state, what an instruction changes and leaves
unchanged, runs, how a run may end (40_cycle.md R110 to R112), and the lines of a program text. -/

namespace Sys2Proof.Machine

/-! ## The invariant -/

/-- What holds of every state a run reaches: storage is in canonical form, `pc` lies in [0, 256] (10_state.md
R32), and `halted` is true exactly when `stop_cause` is not NONE (R44). -/
structure State.Inv (s : State) : Prop where
  mem_wf : s.mem.wf
  pc_range : s.pc.toNat ≤ Config.memSize
  halted_iff : s.halted = true ↔ s.stopCause ≠ .none

/-! ## Frames -/

/-- No register changes. -/
def SameRegisters (s t : State) : Prop := ∀ q : Nat, t.reg q = s.reg q

/-- No storage cell changes. -/
def SameCells (s t : State) : Prop := ∀ a : Nat, t.cell a = s.cell a

/-- Neither `halted` nor `stop_cause` changes. -/
def SameStatus (s t : State) : Prop := t.halted = s.halted ∧ t.stopCause = s.stopCause

/-- `t` is `s` with register `r` holding `v` and nothing else changed. -/
def RegisterWritten (s t : State) (r : Nat) (v : Byte) : Prop :=
  t.reg r = v ∧ (∀ q : Nat, q ≠ r → t.reg q = s.reg q) ∧ SameCells s t ∧ t.pc = s.pc ∧ SameStatus s t

/-- `t` is `s` with cell `a` holding `v` and nothing else changed. -/
def CellWritten (s t : State) (a : Nat) (v : Byte) : Prop :=
  t.cell a = v ∧ (∀ b : Nat, b ≠ a → t.cell b = s.cell b) ∧ SameRegisters s t ∧ t.pc = s.pc ∧ SameStatus s t

/-- `t` is `s` with the program counter holding `p` and nothing else changed. -/
def PcWritten (s t : State) (p : Pc) : Prop :=
  t.pc = p ∧ SameRegisters s t ∧ SameCells s t ∧ SameStatus s t

/-- `t` is `s` stopped by a cause, with nothing else changed (R203). -/
def StoppedBy (s t : State) (c : StopCause) : Prop :=
  t.halted = true ∧ t.stopCause = c ∧ SameRegisters s t ∧ SameCells s t ∧ t.pc = s.pc

/-! ## Words and sequences of instructions -/

/-- A step that fetches the word `w` executes `i` with `pc` already at the fetch address plus 2, and with nothing
else changed before (40_cycle.md R103 to R106). -/
def Executes (w : Word) (i : Instr) : Prop :=
  ∀ st : State, st.halted = false → st.pc.toNat + 1 < Config.memSize →
    st.cell st.pc.toNat ++ st.cell (st.pc.toNat + 1) = w →
    step st = exec i { st with pc := BitVec.ofNat 9 (st.pc.toNat + 2) }

/-- The execute parts of several instructions, one after the other. -/
def execAll : List Instr → State → Result
  | [], s => .next s
  | i :: is, s =>
    match exec i s with
    | .next t => execAll is t
    | .fault r => .fault r
    | .refused r => .refused r

/-! ## Runs -/

/-- `k` steps of the cycle loop. The bound is the caller's, not the block's (R110). -/
def run : Nat → State → Result
  | 0, s => .next s
  | k + 1, s =>
    match step s with
    | .next t => run k t
    | .fault r => .fault r
    | .refused r => .refused r

/-- `t` is a state of the run from `s`. -/
def Reaches (s t : State) : Prop := ∃ k, run k s = .next t

/-- The run from `s` ends, and `c` is its stop cause (R111). -/
def StopsBy (s : State) (c : StopCause) : Prop := ∃ t, Reaches s t ∧ t.halted = true ∧ t.stopCause = c

/-- The run from `s` has no end (R110). -/
def NeverStops (s : State) : Prop := ∀ t, Reaches s t → t.halted = false

/-- A claim about a program says which stop causes it admits (R112): the run from `s` ends in no other way. -/
def AdmitsOnly (causes : List StopCause) (s : State) : Prop :=
  ∀ t, Reaches s t → t.halted = true → t.stopCause ∈ causes

/-- The program's own stop: only HALT (R112). -/
def SafeRun (s : State) : Prop := AdmitsOnly [.halt] s

/-! ## Lines of a program text -/

/-- `line` is the first line of `text` and `rest` the text after it: it ends at the first line feed, and one carriage
return before the line feed is no part of it (70_reset_and_hazards.md R234; decision D16). With no line feed in it the
whole text is its first line (log entry 12). -/
def FirstLine (line rest text : List Char) : Prop :=
  '\n' ∉ line ∧
  (text = line ++ '\r' :: '\n' :: rest ∨
    (text = line ++ '\n' :: rest ∧ line.getLast? ≠ some '\r') ∨
    (text = line ∧ rest = []))

end Sys2Proof.Machine
end

