-- ==== Sys2Proof/Certificates/Slice0/Obligations.lean ====
section
/-! DEFINITION. The statements for the provers. Each docstring names the rules of spec/ it rests on; where a clause
is the spec's own decision (D<n> of 92_eei_decisions.md) or the model's choice, it says so. -/

open Sys2Proof Sys2Proof.Machine

/-! ## Encoding -/

/-- Decoding the bytes of a well-formed instruction gives it back, whatever bytes follow (30_encoding.md R80 to R88,
R91). -/
def Obligations.EncodedInstructionDecodesBack : Prop :=
  ∀ (i : Instr) (rest : List Byte), i.wellFormed = true → decode (encode i ++ rest) = .ok (i, rest)

/-- Every word decodes to a well-formed instruction of its own opcode, and encodes back to itself: no word is read
as another row's and no bit is lost (R81, R88, R89). -/
def Obligations.DecodedWordEncodesBack : Prop :=
  ∀ w : Word, (decodeWord w).wellFormed = true ∧ (decodeWord w).opcode = opField w ∧
    encodeWord (decodeWord w) = w

/-- Words written out from the encodings of 41_data_movement.md, 42_alu.md and 43_control.md decode to the
instructions they stand for (R95 for the first). -/
def Obligations.SpelledOutWordsDecode : Prop :=
  decodeWord 0x12AB = .load 2 0xAB ∧
  decodeWord 0x20FF = .loadi 0 0xFF ∧
  decodeWord 0x3106 = .store 1 0x06 ∧
  decodeWord 0x4F12 = .move 0xF 1 2 ∧
  decodeWord 0x5134 = .add 1 3 4 ∧
  decodeWord 0x6134 = .add6 1 3 4 ∧
  decodeWord 0x7412 = .or 4 1 2 ∧
  decodeWord 0x8312 = .and 3 1 2 ∧
  decodeWord 0x9512 = .xor 5 1 2 ∧
  decodeWord 0xA130 = .rotate 1 3 0 ∧
  decodeWord 0xB112 = .brz 1 0x12 ∧
  decodeWord 0xC000 = .halt 0 ∧
  decodeWord 0x0000 = .unknown0 0 ∧
  decodeWord 0xD000 = .unknownD 0 ∧
  decodeWord 0xE123 = .unknownE 0x123 ∧
  decodeWord 0xFFFF = .unknownF 0xFFF

/-- Every instruction takes exactly two bytes: two or more bytes decode with exactly two consumed, and fewer are
refused by name (R91). -/
def Obligations.EveryInstructionIsTwoBytes : Prop :=
  (∀ i : Instr, (encode i).length = 2) ∧
  (∀ bs : List Byte, 2 ≤ bs.length → ∃ i, decode bs = .ok (i, bs.drop 2)) ∧
  (∀ bs : List Byte, bs.length < 2 → decode bs = .error .truncated)

/-- The decoder selects on the opcode alone, and the bits an instruction ignores have no effect: `r` of MOVE, `t` of
ROTATE and the twelve bits of HALT and of opcodes 0, D, E and F (R89, decision D10). -/
def Obligations.IgnoredFieldsHaveNoEffect : Prop :=
  (∀ v w : Word, opField v = opField w → (decodeWord v).opcode = (decodeWord w).opcode) ∧
  (∀ (x y : Nibble) (s t : Nat) (st : State), exec (.move x s t) st = exec (.move y s t) st) ∧
  (∀ (r : Nat) (n x y : Nibble) (st : State), exec (.rotate r n x) st = exec (.rotate r n y) st) ∧
  (∀ (x y : BitVec 12) (st : State),
    exec (.halt x) st = exec (.halt y) st ∧
    exec (.unknown0 x) st = exec (.unknown0 y) st ∧
    exec (.unknownD x) st = exec (.unknownD y) st ∧
    exec (.unknownE x) st = exec (.unknownE y) st ∧
    exec (.unknownF x) st = exec (.unknownF y) st)

/-! ## The cycle -/

/-- A step that can fetch composes the instruction big-endian from the two cells at `pc` and `pc + 1`, advances `pc`
by 2 without a modulus, and executes the decoded instruction on that state (40_cycle.md R103, R104); said of the
word and of the byte decoder. -/
def Obligations.StepRunsTheDecodedInstruction : Prop :=
  ∀ s : State, s.halted = false → s.pc.toNat + 1 < Config.memSize →
    (step s =
      exec
        (decodeWord (BitVec.ofNat 16
          ((s.cell s.pc.toNat).toNat * 256 + (s.cell (s.pc.toNat + 1)).toNat)))
        { s with pc := BitVec.ofNat 9 (s.pc.toNat + 2) }) ∧
    (BitVec.ofNat 9 (s.pc.toNat + 2)).toNat = s.pc.toNat + 2 ∧
    (∀ (i : Instr) (rest left : List Byte),
      decode (s.cell s.pc.toNat :: s.cell (s.pc.toNat + 1) :: rest) = .ok (i, left) →
      i.wellFormed = true ∧ left = rest ∧
      step s = exec i { s with pc := BitVec.ofNat 9 (s.pc.toNat + 2) })

/-- A fetch whose second byte would lie outside storage stops the machine with `FETCH_BOUNDS`: `pc` is not advanced,
nothing else changes, and no instruction runs (40_cycle.md R102, decisions D4 and D5). -/
def Obligations.FetchOutsideStorageStops : Prop :=
  ∀ s : State, s.halted = false → Config.memSize ≤ s.pc.toNat + 1 →
    ∃ t, step s = .next t ∧ StoppedBy s t .fetchBounds

/-- The halted state is final: however often the machine is stepped, the state is the same (40_cycle.md R111, 10_state.md
R37). That `step` answers the same state, where the spec takes no step, is the model's choice (log entry 8). -/
def Obligations.HaltedStateIsFinal : Prop :=
  ∀ (s : State) (k : Nat), s.halted = true → run k s = .next s

/-- The machine stops, it does not crash (60_exceptions.md R200): every step, whatever the state, answers a next state. That
every error is a next state, never a fault and never a refusal, is read from R200 (log entry 19); that a halted state,
from which the spec takes no step (40_cycle.md R101, R111), has one too is the model's choice (log entry 8). -/
def Obligations.EveryStepAnswersANextState : Prop :=
  ∀ s : State, ∃ t, step s = .next t

/-- When a step sets `halted`, and that none clears it (10_state.md R36): HALT, an unrecognised opcode, and a bounds
fault, which for a decoded word is a fetch outside storage. The stop causes are the spec's own names (decision D6). -/
def Obligations.StepSetsHaltedInExactlyThreeCases : Prop :=
  ∀ s t : State, step s = .next t →
    (s.halted = true → t.halted = true) ∧
    (s.halted = false →
      (Config.memSize ≤ s.pc.toNat + 1 → t.halted = true ∧ t.stopCause = .fetchBounds) ∧
      (s.pc.toNat + 1 < Config.memSize →
        ((s.cell s.pc.toNat).toNat / 16 = 0xC → t.halted = true ∧ t.stopCause = .halt) ∧
        ((s.cell s.pc.toNat).toNat / 16 ∈ [0x0, 0xD, 0xE, 0xF] →
          t.halted = true ∧ t.stopCause = .unknownOpcode) ∧
        ((s.cell s.pc.toNat).toNat / 16 ∈ [0x1, 0x2, 0x3, 0x4, 0x5, 0x6, 0x7, 0x8, 0x9, 0xA, 0xB] →
          t.halted = false ∧ t.stopCause = s.stopCause)))

/-- A step changes a storage cell only by STORE, and then only the cell its address field names, to the value of its
source register (20_memory.md R59, R56). -/
def Obligations.StorageChangesOnlyByStore : Prop :=
  ∀ (s t : State) (a : Nat), step s = .next t → t.cell a ≠ s.cell a →
    s.halted = false ∧ (s.cell s.pc.toNat).toNat / 16 = 0x3 ∧
    a = (s.cell (s.pc.toNat + 1)).toNat ∧ t.cell a = s.reg ((s.cell s.pc.toNat).toNat % 16)

/-- A step changes at most one register: the `r` field's for opcodes 1, 2 and 5 to A, the `t` field's for opcode 4
(10_state.md R23). -/
def Obligations.RegistersChangeOnlyAsDestination : Prop :=
  ∀ (s t : State) (q : Nat), step s = .next t → t.reg q ≠ s.reg q →
    s.halted = false ∧
    (((s.cell s.pc.toNat).toNat / 16 ∈ [0x1, 0x2, 0x5, 0x6, 0x7, 0x8, 0x9, 0xA] ∧
        q = (s.cell s.pc.toNat).toNat % 16) ∨
      ((s.cell s.pc.toNat).toNat / 16 = 0x4 ∧ q = (s.cell (s.pc.toNat + 1)).toNat % 16))

/-- How each step leaves `pc` (10_state.md R31): a taken branch overwrites it with the address field, a failed fetch
leaves it, and every other step leaves the fetch address plus 2. -/
def Obligations.PcAfterEveryStep : Prop :=
  ∀ s t : State, s.halted = false → step s = .next t →
    (Config.memSize ≤ s.pc.toNat + 1 → t.pc = s.pc) ∧
    (s.pc.toNat + 1 < Config.memSize →
      t.pc.toNat =
        if (s.cell s.pc.toNat).toNat / 16 = 0xB ∧ s.reg ((s.cell s.pc.toNat).toNat % 16) = 0x00#8
        then (s.cell (s.pc.toNat + 1)).toNat
        else s.pc.toNat + 2)

/-- A stopped instruction has no partial effect (60_exceptions.md R203, decision D4): of a step that stops, only
`halted`, `stop_cause` and, for every cause but `FETCH_BOUNDS`, the advance of `pc` differ; of an instruction that
stops, whatever its operands, only `halted` and `stop_cause`. -/
def Obligations.StoppedStepHasNoPartialEffect : Prop :=
  (∀ s t : State, s.halted = false → step s = .next t → t.halted = true →
    SameRegisters s t ∧ SameCells s t ∧
    (t.stopCause = .fetchBounds → t.pc = s.pc) ∧
    (t.stopCause ≠ .fetchBounds → t.pc.toNat = s.pc.toNat + 2)) ∧
  (∀ (i : Instr) (s t : State), s.halted = false → exec i s = .next t → t.halted = true →
    StoppedBy s t t.stopCause)

/-- The reported final program counter is the address of the instruction that stopped the machine, with the spec's two
formulas for it (40_cycle.md R109, decision D5 for the second); it is defined only when the run has ended (R111). -/
def Obligations.FinalPcIsTheStoppingInstruction : Prop :=
  (∀ s t : State, s.halted = false → step s = .next t → t.halted = true → t.finalPc = some s.pc) ∧
  (∀ s : State, s.halted = true → s.stopCause ∈ [.halt, .unknownOpcode, .dataBounds] →
    s.finalPc = some (s.pc - 2#9)) ∧
  (∀ s : State, s.halted = true → s.stopCause = .fetchBounds → s.finalPc = some s.pc) ∧
  (∀ s : State, s.halted = false → s.finalPc = none)

/-! ## Invariants and runs -/

/-- Every step keeps the invariant: storage in canonical form, `pc` in [0, 256] (10_state.md R32), and `halted` true
exactly when `stop_cause` is not NONE (R44). The canonical form is the model's (log entry 14). -/
def Obligations.StepKeepsTheInvariant : Prop :=
  ∀ s t : State, s.Inv → step s = .next t → t.Inv

/-- The state after reset meets the invariant: `pc` in [0, 256] (10_state.md R32), `halted` true exactly when `stop_cause` is
not NONE (R44), both at the values of 70_reset_and_hazards.md R230; and storage in canonical form, which is the model's
(log entry 14). -/
def Obligations.ResetMeetsTheInvariant : Prop := State.reset.Inv

/-- Whatever values the registers and the cells hold after construction (decisions D11 and D12 left open, 00_scope.md
R14), and whatever image is loaded, every state of the run meets the invariant (10_state.md R32, R44). The canonical form
in it is the model's (log entry 14), and so are runs of an image of odd length (log entry 13). -/
def Obligations.EveryRunFromAnyConstructionKeepsTheInvariant : Prop :=
  ∀ (regFill memFill : Byte) (image : List Byte) (t : State),
    Reaches (loadImage image (State.construct regFill memFill)).state t → t.Inv

/-- What reset leaves (70_reset_and_hazards.md R230): every register and every cell 0x00 (the spec's own decisions D11
and D12, log entries 1 and 2), `pc` 0, `halted` false and `stop_cause` NONE; it is construction with 0x00 for both
fill values. -/
def Obligations.ResetStateHoldsTheResetValues : Prop :=
  (∀ q : Nat, q < 16 → State.reset.regGet q = some 0x00#8) ∧
  (∀ a : Nat, a < 256 → State.reset.memRead a = some 0x00#8) ∧
  State.reset.pc = 0#9 ∧ State.reset.halted = false ∧ State.reset.stopCause = .none ∧
  State.construct 0x00#8 0x00#8 = State.reset

/-- Construction with any two fill values gives them to every register and every cell (00_scope.md R14). -/
def Obligations.ConstructionFillsRegistersAndCells : Prop :=
  ∀ regFill memFill : Byte,
    (∀ q : Nat, q < 16 → (State.construct regFill memFill).regGet q = some regFill) ∧
    (∀ a : Nat, a < 256 → (State.construct regFill memFill).memRead a = some memFill) ∧
    (State.construct regFill memFill).pc = 0#9 ∧ (State.construct regFill memFill).halted = false ∧
    (State.construct regFill memFill).stopCause = .none

/-- A run that starts running ends, if it ends, by HALT, an unknown opcode or a fetch outside storage: `DATA_BOUNDS` is
reached by no run (60_exceptions.md R201), and a final program counter is reported (40_cycle.md R109). -/
def Obligations.EndedRunsStopByOneOfThreeCauses : Prop :=
  ∀ s : State, s.halted = false →
    AdmitsOnly [.halt, .unknownOpcode, .fetchBounds] s ∧
    (∀ t, Reaches s t → t.halted = true → ∃ p, t.finalPc = some p)

/-- A BRZ to its own address on a register that holds 0 repeats for ever: the step gives the same state, and the run has
no end (43_control.md R170, 40_cycle.md R110). -/
def Obligations.BranchToItselfNeverStops : Prop :=
  ∀ (s : State) (r : Nibble), s.halted = false → s.pc.toNat + 1 < Config.memSize →
    s.cell s.pc.toNat = 0xB#4 ++ r → (s.cell (s.pc.toNat + 1)).toNat = s.pc.toNat →
    s.reg r.toNat = 0x00#8 →
    step s = .next s ∧ NeverStops s

/-! ## Bounds -/

/-- An instruction with a register number of 16 or more or a storage address of 256 or more stops with `DATA_BOUNDS`
and writes nothing; one within the bounds never raises it (10_state.md R27, 20_memory.md R55 and R56, decision D4). -/
def Obligations.OutOfRangeOperandStops : Prop :=
  (∀ (i : Instr) (s : State), i.wellFormed = false →
    ∃ t, exec i s = .next t ∧ StoppedBy s t .dataBounds) ∧
  (∀ (i : Instr) (s : State), i.wellFormed = true →
    ∃ t, exec i s = .next t ∧ (t.stopCause = .dataBounds → s.stopCause = .dataBounds))

/-! ## Data movement -/

/-- LOAD (41_data_movement.md R120): every word `1rst` executes it; it copies the cell into the register and changes
nothing else; an address outside storage stops with `DATA_BOUNDS` and writes no register. -/
def Obligations.LoadCopiesCellIntoRegister : Prop :=
  (∀ r s t : Nibble, Executes (0x1#4 ++ r ++ s ++ t) (.load r.toNat (s ++ t).toNat)) ∧
  (∀ (st : State) (r a : Nat), r < 16 → a < 256 →
    ∃ u, exec (.load r a) st = .next u ∧ RegisterWritten st u r (st.cell a)) ∧
  (∀ (st : State) (r a : Nat), 256 ≤ a →
    ∃ u, exec (.load r a) st = .next u ∧ StoppedBy st u .dataBounds)

/-- LOADI (R121): every word `2rst` executes it; the register holds the literal `s ++ t` and nothing else changes. -/
def Obligations.LoadiWritesTheLiteral : Prop :=
  (∀ r s t : Nibble, Executes (0x2#4 ++ r ++ s ++ t) (.loadi r.toNat (s ++ t))) ∧
  (∀ (st : State) (r : Nat) (v : Byte), r < 16 →
    ∃ u, exec (.loadi r v) st = .next u ∧ RegisterWritten st u r v)

/-- STORE (R122): every word `3rst` executes it; it copies the register into the cell its address names and changes no
register and no other cell, and every later fetch that reads that cell reads the value; an address outside storage
stops with `DATA_BOUNDS` and no cell written. -/
def Obligations.StoreCopiesRegisterIntoCell : Prop :=
  (∀ r s t : Nibble, Executes (0x3#4 ++ r ++ s ++ t) (.store r.toNat (s ++ t).toNat)) ∧
  (∀ (st : State) (r a : Nat), r < 16 → a < 256 →
    ∃ u, exec (.store r a) st = .next u ∧ CellWritten st u a (st.reg r) ∧
      ∀ p : Nat, p + 1 < 256 →
        u.wordAt p = some ((if p = a then st.reg r else st.cell p) ++
          (if p + 1 = a then st.reg r else st.cell (p + 1)))) ∧
  (∀ (st : State) (r a : Nat), 256 ≤ a →
    ∃ u, exec (.store r a) st = .next u ∧ StoppedBy st u .dataBounds)

/-- MOVE (R123): every word `4rst` executes it, whatever `r`; the register `t` takes the value of the register `s` and
nothing else changes. -/
def Obligations.MoveCopiesRegister : Prop :=
  (∀ r s t : Nibble, Executes (0x4#4 ++ r ++ s ++ t) (.move r s.toNat t.toNat)) ∧
  (∀ (st : State) (x : Nibble) (s t : Nat), s < 16 → t < 16 →
    ∃ u, exec (.move x s t) st = .next u ∧ RegisterWritten st u t (st.reg s))

/-! ## Arithmetic and logic -/

/-- `alu_add` is addition modulo 256, the carry lost (42_alu.md R141). -/
def Obligations.AluAddIsAdditionModulo256 : Prop :=
  ∀ a b : Byte, (aluAdd a b).toNat = (a.toNat + b.toNat) % 256

/-- `alu_or`, `alu_and` and `alu_xor` work bit by bit (R142, R143, R144). -/
def Obligations.AluLogicWorksBitByBit : Prop :=
  ∀ (a b : Byte) (i : Nat), i < 8 →
    (aluOr a b).getLsbD i = (a.getLsbD i || b.getLsbD i) ∧
    (aluAnd a b).getLsbD i = (a.getLsbD i && b.getLsbD i) ∧
    (aluXor a b).getLsbD i = (a.getLsbD i ^^ b.getLsbD i)

/-- `alu_rotr` moves every bit (R145): bit `i` of the result is bit `(i + n mod 8) mod 8` of the value. The bit-level
reading is the spec's general knowledge (K1, log entry 20), and the reduction modulo 8 its decision D8 (log entry 6). -/
def Obligations.RotateMovesEveryBit : Prop :=
  ∀ (v : Byte) (n : Nibble) (i : Nat), i < 8 →
    (aluRotr v n).getLsbD i = v.getLsbD ((i + n.toNat % 8) % 8)

/-- ADD (R148): every word `5rst` executes it; the sum modulo 256 of the two sources, both read before the write, goes
to the register `r`, and nothing else changes. -/
def Obligations.AddWritesTheSum : Prop :=
  (∀ r s t : Nibble, Executes (0x5#4 ++ r ++ s ++ t) (.add r.toNat s.toNat t.toNat)) ∧
  (∀ (st : State) (r s t : Nat), r < 16 → s < 16 → t < 16 →
    ∃ u, exec (.add r s t) st = .next u ∧
      RegisterWritten st u r (BitVec.ofNat 8 (((st.reg s).toNat + (st.reg t).toNat) % 256)))

/-- ADD6 (R149): every word `6rst` executes it; its effect is the sum as for ADD, and on every state and all operands it
equals that of ADD. -/
def Obligations.AddSixEqualsAdd : Prop :=
  (∀ r s t : Nibble, Executes (0x6#4 ++ r ++ s ++ t) (.add6 r.toNat s.toNat t.toNat)) ∧
  (∀ (st : State) (r s t : Nat), r < 16 → s < 16 → t < 16 →
    ∃ u, exec (.add6 r s t) st = .next u ∧
      RegisterWritten st u r (BitVec.ofNat 8 (((st.reg s).toNat + (st.reg t).toNat) % 256))) ∧
  (∀ (st : State) (r s t : Nat), exec (.add6 r s t) st = exec (.add r s t) st)

/-- OR (R150): every word `7rst` executes it; the bitwise OR of the two sources goes to the register `r`, and nothing
else changes. -/
def Obligations.OrWritesTheDisjunction : Prop :=
  (∀ r s t : Nibble, Executes (0x7#4 ++ r ++ s ++ t) (.or r.toNat s.toNat t.toNat)) ∧
  (∀ (st : State) (r s t : Nat), r < 16 → s < 16 → t < 16 →
    ∃ u, exec (.or r s t) st = .next u ∧ RegisterWritten st u r (st.reg s ||| st.reg t))

/-- AND (R151): every word `8rst` executes it; the bitwise AND of the two sources goes to the register `r`, and nothing
else changes. -/
def Obligations.AndWritesTheConjunction : Prop :=
  (∀ r s t : Nibble, Executes (0x8#4 ++ r ++ s ++ t) (.and r.toNat s.toNat t.toNat)) ∧
  (∀ (st : State) (r s t : Nat), r < 16 → s < 16 → t < 16 →
    ∃ u, exec (.and r s t) st = .next u ∧ RegisterWritten st u r (st.reg s &&& st.reg t))

/-- XOR (R152): every word `9rst` executes it; the bitwise XOR of the two sources goes to the register `r`, and nothing
else changes. -/
def Obligations.XorWritesTheDifference : Prop :=
  (∀ r s t : Nibble, Executes (0x9#4 ++ r ++ s ++ t) (.xor r.toNat s.toNat t.toNat)) ∧
  (∀ (st : State) (r s t : Nat), r < 16 → s < 16 → t < 16 →
    ∃ u, exec (.xor r s t) st = .next u ∧ RegisterWritten st u r (st.reg s ^^^ st.reg t))

/-- ROTATE (R153): every word `Arst` executes it, the amount in `s` and `t` ignored; the register holds its old value
rotated right by `s mod 8`, bit by bit, and nothing else changes. The reading bit by bit is that of R145, which the spec
marks as general knowledge (K1, log entry 20); the amounts 8 to 15 rest on its decision D8 (log entry 6). -/
def Obligations.RotateTurnsTheRegisterRight : Prop :=
  (∀ r s t : Nibble, Executes (0xA#4 ++ r ++ s ++ t) (.rotate r.toNat s t)) ∧
  (∀ (st : State) (r : Nat) (n x : Nibble), r < 16 →
    ∃ (u : State) (v : Byte), exec (.rotate r n x) st = .next u ∧ RegisterWritten st u r v ∧
      ∀ i : Nat, i < 8 → v.getLsbD i = (st.reg r).getLsbD ((i + n.toNat % 8) % 8))

/-- Rotating a register right by 1 eight times returns it to its original value, and rotating by `k` and then by
`8 - k` does too; nothing else changes (R153). -/
def Obligations.RotationsReturnTheRegister : Prop :=
  (∀ (st : State) (r : Nat) (x : Nibble), r < 16 →
    ∃ u, execAll (List.replicate 8 (.rotate r 1 x)) st = .next u ∧ RegisterWritten st u r (st.reg r)) ∧
  (∀ (st : State) (r k : Nat) (x : Nibble), r < 16 → k ≤ 8 →
    ∃ u, execAll [.rotate r (BitVec.ofNat 4 k) x, .rotate r (BitVec.ofNat 4 (8 - k)) x] st = .next u ∧
      RegisterWritten st u r (st.reg r))

/-! ## Control -/

/-- BRZ (43_control.md R170): every word `Brst` executes it; with the register 0, `pc` is overwritten by the zero-extended
target; with any other value `pc` stays; no register or cell changes. -/
def Obligations.BrzBranchesExactlyOnZero : Prop :=
  (∀ r s t : Nibble, Executes (0xB#4 ++ r ++ s ++ t) (.brz r.toNat (s ++ t))) ∧
  (∀ (st : State) (r : Nat) (a : Byte), r < 16 → st.reg r = 0x00#8 →
    ∃ u, exec (.brz r a) st = .next u ∧ u.pc.toNat = a.toNat ∧ PcWritten st u u.pc) ∧
  (∀ (st : State) (r : Nat) (a : Byte), r < 16 → st.reg r ≠ 0x00#8 →
    exec (.brz r a) st = .next st)

/-- HALT (R171): every word with opcode C executes it; `halted` becomes true and `stop_cause` HALT, nothing else changes,
the block then reports the fetch address as final program counter, and no further step changes anything (that `step`
answers the same state, where the spec takes no step, is the model's choice, log entry 8). -/
def Obligations.HaltStopsTheMachine : Prop :=
  (∀ x : BitVec 12, Executes (0xC#4 ++ x) (.halt x)) ∧
  (∀ (st : State) (x : BitVec 12),
    ∃ u, exec (.halt x) st = .next u ∧ StoppedBy st u .halt ∧ u.finalPc = some (st.pc - 2#9)) ∧
  (∀ (st u : State) (k : Nat) (x : BitVec 12), exec (.halt x) st = .next u → run k u = .next u)

/-- Opcodes 0, D, E and F (R172): every word with one of them stops the machine with `UNKNOWN_OPCODE` (decisions D6 and
D7), nothing else changes, and the block then reports the fetch address as final program counter. -/
def Obligations.UnknownOpcodesStopTheMachine : Prop :=
  (∀ x : BitVec 12,
    Executes (0x0#4 ++ x) (.unknown0 x) ∧ Executes (0xD#4 ++ x) (.unknownD x) ∧
    Executes (0xE#4 ++ x) (.unknownE x) ∧ Executes (0xF#4 ++ x) (.unknownF x)) ∧
  (∀ (st : State) (x : BitVec 12) (i : Instr),
    i ∈ [Instr.unknown0 x, .unknownD x, .unknownE x, .unknownF x] →
    ∃ u, exec i st = .next u ∧ StoppedBy st u .unknownOpcode ∧ u.finalPc = some (st.pc - 2#9))

/-! ## Storage as instructions see it -/

/-- A LOAD after a STORE reads the value stored, if the addresses are equal, and else what the cell held (20_memory.md
R69). -/
def Obligations.LoadReadsTheLastStore : Prop :=
  ∀ (st : State) (r q a b : Nat), r < 16 → q < 16 → a < 256 → b < 256 →
    ∃ u, execAll [.store r a, .load q b] st = .next u ∧
      u.reg q = if b = a then st.reg r else st.cell b

/-- A step that is a STORE into any cell, its own and those of the next instruction among them, runs as it was fetched, and
the next step runs the word that then stands at the next address, with the stored byte in it (20_memory.md R73, R74,
R60). -/
def Obligations.StoreIsSeenByTheNextFetch : Prop :=
  ∀ (s : State) (r : Nibble) (a : Byte), s.halted = false → s.pc.toNat + 3 < 256 →
    s.cell s.pc.toNat = 0x3#4 ++ r → s.cell (s.pc.toNat + 1) = a →
    ∃ t, step s = .next t ∧
      CellWritten { s with pc := BitVec.ofNat 9 (s.pc.toNat + 2) } t a.toNat (s.reg r.toNat) ∧
      step t =
        exec
          (decodeWord
            ((if s.pc.toNat + 2 = a.toNat then s.reg r.toNat else s.cell (s.pc.toNat + 2)) ++
              (if s.pc.toNat + 3 = a.toNat then s.reg r.toNat else s.cell (s.pc.toNat + 3))))
          { t with pc := BitVec.ofNat 9 (s.pc.toNat + 4) }

/-- Two memories in canonical form that read alike at every address are the same data (the model's form of storage, log
entry 14). -/
def Obligations.CanonicalMemoriesThatReadAlikeAreEqual : Prop :=
  ∀ m n : Memory, m.wf → n.wf → (∀ a : Nat, m.read a = n.read a) → m = n

/-! ## What an instruction depends on -/

/-- No instruction reads `halted` or `stop_cause` (10_state.md R38, R40): whatever values the two hold, an instruction has
one effect on the registers, storage and `pc`, and it either leaves the two as they were or raises one and the same stop.
The field `stop_cause` is the spec's own (decision D6, log entry 10). -/
def Obligations.NoInstructionReadsTheStatus : Prop :=
  ∀ (i : Instr) (s : State),
    (∃ t : State, ∀ (h : Bool) (c : StopCause),
      exec i { s with halted := h, stopCause := c } = .next { t with halted := h, stopCause := c }) ∨
    (∃ (t : State) (k : StopCause), k ≠ .none ∧ ∀ (h : Bool) (c : StopCause),
      exec i { s with halted := h, stopCause := c } = .next { t with halted := true, stopCause := k })

/-- What an instruction writes depends only on the registers and cells it names and on the status: on two states that agree
on those registers and cells and on `pc`, it leaves states that agree on them and on `pc`, and if the two states agree on
`halted` and `stop_cause` too, so do the states it leaves (10_state.md R23, 20_memory.md R57, R58). -/
def Obligations.ResultsDependOnlyOnNamedOperands : Prop :=
  ∀ (i : Instr) (s s' t t' : State),
    (∀ q ∈ i.registers, s.reg q = s'.reg q) → (∀ a ∈ i.addresses, s.cell a = s'.cell a) →
    s.pc = s'.pc → exec i s = .next t → exec i s' = .next t' →
    (∀ q ∈ i.registers, t.reg q = t'.reg q) ∧ (∀ a ∈ i.addresses, t.cell a = t'.cell a) ∧ t.pc = t'.pc ∧
    (SameStatus s s' → SameStatus t t')

/-! ## The host's side -/

/-- The outputs after the run has ended are the final program counter, the 16 registers and the 256 cells in order, and the
two status fields (10_state.md R46); while it has not ended there are none (40_cycle.md R111). -/
def Obligations.OutputsShowTheFinalState : Prop :=
  (∀ (s : State) (p : Pc), s.finalPc = some p →
    ∃ o, observe s = some o ∧ o.finalPc = p ∧
      o.regs.length = 16 ∧ (∀ q : Nat, q < 16 → o.regs[q]? = some (s.reg q)) ∧
      o.mem.length = 256 ∧ (∀ a : Nat, a < 256 → o.mem[a]? = some (s.cell a)) ∧
      o.halted = s.halted ∧ o.stopCause = s.stopCause) ∧
  (∀ s : State, s.halted = false → observe s = none)

/-- An image of at most 256 bytes is placed verbatim from address 0 and nothing else changes; a longer one fails as a whole
and changes nothing (70_reset_and_hazards.md R233, R237 to R239, decisions D18 and D19). An image of odd length, which
no program text makes, is placed too (log entry 13), and the name of the error is the model's (log entry 15). The spec
says so of the load after construction; that it holds in every state, a machine that has already run among them, is the
model's choice (R241, decision D25, log entry 22). -/
def Obligations.ImageIsPlacedWholeOrNotAtAll : Prop :=
  (∀ (image : List Byte) (s : State), image.length ≤ 256 →
    (loadImage image s).error = none ∧
    (∀ a : Nat, (loadImage image s).state.cell a = (image[a]?).getD (s.cell a)) ∧
    SameRegisters s (loadImage image s).state ∧ (loadImage image s).state.pc = s.pc ∧
    SameStatus s (loadImage image s).state) ∧
  (∀ (image : List Byte) (s : State), 256 < image.length →
    (loadImage image s).error = some .imageTooLong ∧ (loadImage image s).state = s)

/-- The image of a program text, line by line (R233 to R236, decision D16, host side). Every text has a first line. A blank
one gives nothing, and the image is that of the rest; one of four digits puts its two bytes, in order, in front of what the
rest gives, and passes on the failure of the rest; one that is neither blank nor of four characters fails the load, as does
one of four with a character that is no digit. The model's choices: a last line without a line feed is a line like any
other, and the text of no character gives no byte (log entry 12); the names of the errors (log entry 15). -/
def Obligations.EachTextLineGivesTwoBytes : Prop :=
  (∀ text : List Char, ∃ line rest, FirstLine line rest text) ∧
  imageOfText [] = .ok [] ∧
  (∀ line rest text : List Char, FirstLine line rest text →
    (line = [] → imageOfText text = imageOfText rest) ∧
    (∀ (c0 c1 c2 c3 : Char) (d0 d1 d2 d3 : Nibble), line = [c0, c1, c2, c3] →
      hexDigit c0 = some d0 → hexDigit c1 = some d1 → hexDigit c2 = some d2 → hexDigit c3 = some d3 →
      imageOfText text = (imageOfText rest).map (fun bs => (d0 ++ d1) :: (d2 ++ d3) :: bs)) ∧
    (line ≠ [] → line.length ≠ 4 → imageOfText text = .error .wrongLength) ∧
    (line.length = 4 → (∃ c ∈ line, hexDigit c = none) → imageOfText text = .error .nonHex))

/-- Every failed load of a program file, whatever its reason, leaves the state as it was and no run begins (R238, decision
D19); a file that cannot be read is such a failure (R236); a load that does not fail is the load of an image the file's
text gives, and the run begins from the state it leaves (R232). The spec says so of the load after construction; that the
clauses on the load hold in every state, a machine that has already run among them, is the model's choice (R241, decision
D25, log entry 22). -/
def Obligations.FailedLoadLeavesTheState : Prop :=
  (∀ (file : ProgramFile) (s : State), (loadFile file s).error ≠ none →
    (loadFile file s).state = s ∧ boot file = none) ∧
  (∀ s : State, (loadFile .unreadable s).error ≠ none) ∧
  (∀ (file : ProgramFile) (s : State), (loadFile file s).error = none →
    ∃ text image, file = .text text ∧ imageOfText text = .ok image ∧ loadFile file s = loadImage image s ∧
      boot file = some (loadImage image State.reset).state)

/-- The hexadecimal digits and their values: a character is one of `0` to `9`, `A` to `F` and `a` to `f` with its value, or
no digit (R234, decision D16). -/
def Obligations.HexDigitsHaveTheirValues : Prop :=
  ∀ (c : Char) (v : Nibble), hexDigit c = some v ↔
    (c, v.toNat) ∈ ['0', '1', '2', '3', '4', '5', '6', '7', '8', '9', 'A', 'B', 'C', 'D', 'E', 'F'].zip (List.range 16) ∨
    (c, v.toNat) ∈ ['a', 'b', 'c', 'd', 'e', 'f'].zip [10, 11, 12, 13, 14, 15]
end

