-- ==== Sys2Proof/Laws/Decode.lean ====
section
/-! SUPPORT. The fields of a word made of four nibbles, what such a word decodes to, and where a register number or an
address fits its field. -/

namespace Sys2Proof

/-- Every word is its four fields (30_encoding.md R81). -/
theorem word_eq_fields (w : Word) : w = opField w ++ rField w ++ sField w ++ tField w := by
  apply BitVec.eq_of_getLsbD_eq
  intro i hi
  simp only [opField, rField, sField, tField, BitVec.getLsbD_append, BitVec.getLsbD_extractLsb']
  interval_cases i <;> rfl

theorem opField_nibbles (o a b c : Nibble) : opField (o ++ a ++ b ++ c) = o := by
  apply BitVec.eq_of_getLsbD_eq
  intro i hi
  simp only [opField, BitVec.getLsbD_append, BitVec.getLsbD_extractLsb']
  interval_cases i <;> rfl

theorem rField_nibbles (o a b c : Nibble) : rField (o ++ a ++ b ++ c) = a := by
  apply BitVec.eq_of_getLsbD_eq
  intro i hi
  simp only [rField, BitVec.getLsbD_append, BitVec.getLsbD_extractLsb']
  interval_cases i <;> rfl

theorem sField_nibbles (o a b c : Nibble) : sField (o ++ a ++ b ++ c) = b := by
  apply BitVec.eq_of_getLsbD_eq
  intro i hi
  simp only [sField, BitVec.getLsbD_append, BitVec.getLsbD_extractLsb']
  interval_cases i <;> rfl

theorem tField_nibbles (o a b c : Nibble) : tField (o ++ a ++ b ++ c) = c := by
  apply BitVec.eq_of_getLsbD_eq
  intro i hi
  simp only [tField, BitVec.getLsbD_append, BitVec.getLsbD_extractLsb']
  interval_cases i <;> rfl

theorem belowOpcode_nibbles (o a b c : Nibble) : belowOpcode (o ++ a ++ b ++ c) = a ++ b ++ c := by
  apply BitVec.eq_of_getLsbD_eq
  intro i hi
  simp only [belowOpcode, BitVec.getLsbD_append, BitVec.getLsbD_extractLsb']
  interval_cases i <;> rfl

/-- Decoding said of the four nibbles of a word. -/
theorem decodeWord_nibbles (o a b c : Nibble) : decodeWord (o ++ a ++ b ++ c) =
    match o.toNat with
    | 0x0 => .unknown0 (a ++ b ++ c)
    | 0x1 => .load a.toNat (b ++ c).toNat
    | 0x2 => .loadi a.toNat (b ++ c)
    | 0x3 => .store a.toNat (b ++ c).toNat
    | 0x4 => .move a b.toNat c.toNat
    | 0x5 => .add a.toNat b.toNat c.toNat
    | 0x6 => .add6 a.toNat b.toNat c.toNat
    | 0x7 => .or a.toNat b.toNat c.toNat
    | 0x8 => .and a.toNat b.toNat c.toNat
    | 0x9 => .xor a.toNat b.toNat c.toNat
    | 0xA => .rotate a.toNat b c
    | 0xB => .brz a.toNat (b ++ c)
    | 0xC => .halt (a ++ b ++ c)
    | 0xD => .unknownD (a ++ b ++ c)
    | 0xE => .unknownE (a ++ b ++ c)
    | _ => .unknownF (a ++ b ++ c) := by
  simp only [decodeWord, opField_nibbles, rField_nibbles, sField_nibbles, tField_nibbles,
    belowOpcode_nibbles, addressField] <;> rfl

/-! ## Bytes and twelve-bit fields as nibbles -/

theorem byte_eq_nibbles (v : Byte) : ∃ a b : Nibble, v = a ++ b := by
  refine ⟨v.extractLsb' 4 4, v.extractLsb' 0 4, ?_⟩
  apply BitVec.eq_of_getLsbD_eq
  intro i hi
  simp only [BitVec.getLsbD_append, BitVec.getLsbD_extractLsb']
  interval_cases i <;> rfl

theorem twelve_eq_nibbles (v : BitVec 12) : ∃ a b c : Nibble, v = a ++ b ++ c := by
  refine ⟨v.extractLsb' 8 4, v.extractLsb' 4 4, v.extractLsb' 0 4, ?_⟩
  apply BitVec.eq_of_getLsbD_eq
  intro i hi
  simp only [BitVec.getLsbD_append, BitVec.getLsbD_extractLsb']
  interval_cases i <;> rfl

theorem append_byte (o a b c : Nibble) : (o ++ a ++ (b ++ c : Byte) : Word) = o ++ a ++ b ++ c := by
  apply BitVec.eq_of_getLsbD_eq
  intro i hi
  simp only [BitVec.getLsbD_append]
  interval_cases i <;> rfl

theorem append_twelve (o a b c : Nibble) :
    (o ++ (a ++ b ++ c : BitVec 12) : Word) = o ++ a ++ b ++ c := by
  apply BitVec.eq_of_getLsbD_eq
  intro i hi
  simp only [BitVec.getLsbD_append]
  interval_cases i <;> rfl

/-- The two bytes of a word, put together again (R60). -/
theorem highByte_append_lowByte (w : Word) : highByte w ++ lowByte w = w := by
  apply BitVec.eq_of_getLsbD_eq
  intro i hi
  simp only [highByte, lowByte, BitVec.getLsbD_append, BitVec.getLsbD_extractLsb']
  interval_cases i <;> rfl

/-! ## Fields that fit -/

theorem regField_toNat {r : Nat} (h : r < Config.nreg) : (regField r).toNat = r := by
  simpa only [regField, BitVec.toNat_ofNat] using Nat.mod_eq_of_lt h

theorem regField_of_toNat (n : Nibble) : regField n.toNat = n := by
  simp [regField]

theorem tableWord_16 (w : Nat) : tableWord 16 w = BitVec.ofNat 16 w := by
  apply BitVec.eq_of_toNat_eq
  simp [tableWord]

end Sys2Proof
end

