-- ==== Sys2Proof/Laws/Memory.lean ====
section
/-! SUPPORT. The laws of storage as data: read after write on every memory, and the canonical form kept by every
memory operation and unique for what it reads. -/

namespace Sys2Proof.Machine

@[simp] theorem Memory.read_nil (a : Nat) : Memory.read [] a = Config.resetMem := rfl

/-- Erasing an entry makes its address read as an unlisted one, and no other address read differently. -/
theorem Memory.read_erase (m : Memory) (a b : Nat) :
    (m.erase a).read b = if b = a then Config.resetMem else m.read b := by
  induction m with
  | nil => simp [Memory.erase]
  | cons c m ih =>
    obtain ⟨k, w⟩ := c
    simp only [Memory.erase] at ih ⊢
    by_cases hka : k = a
    · by_cases hb : b = a <;> simp_all [Memory.read]
    · by_cases hbk : b = k <;> by_cases hb : b = a <;> simp_all [Memory.read]

/-- Inserting an entry for an address the memory reads nothing before. -/
theorem Memory.read_insert (m : Memory) (a b : Nat) (v : Byte) (h : ∀ c ∈ m, c.1 ≠ a) :
    (m.insert a v).read b = if b = a then v else m.read b := by
  induction m with
  | nil => simp [Memory.insert, Memory.read]
  | cons c m ih =>
    obtain ⟨k, w⟩ := c
    have hk : k ≠ a := h (k, w) (by simp)
    have ih := ih fun c hc => h c (by simp [hc])
    unfold Memory.insert
    split
    · simp [Memory.read]
    · by_cases hb : b = a
      · subst hb; simp_all [Memory.read, Ne.symm hk]
      · by_cases hbk : b = k <;> simp_all [Memory.read]

theorem Memory.mem_erase {m : Memory} {a : Nat} {c : Host.Cell} :
    c ∈ m.erase a ↔ c ∈ m ∧ c.1 ≠ a := by
  simp [Memory.erase, List.mem_filter]

theorem Memory.mem_insert {m : Memory} {a : Nat} {v : Byte} {c : Host.Cell} :
    c ∈ m.insert a v ↔ c = (a, v) ∨ c ∈ m := by
  induction m with
  | nil => simp [Memory.insert]
  | cons d m ih =>
    unfold Memory.insert
    split
    · simp
    · simp only [List.mem_cons, ih]
      tauto

/-- Read after write (20_memory.md R56, R69): the address written reads as the value written, every other address
as before, whatever the memory. -/
theorem Memory.read_write (m : Memory) (a b : Nat) (v : Byte) :
    (m.write a v).read b = if b = a then v else m.read b := by
  unfold Memory.write
  split
  · next h => rw [Memory.read_erase, h]
  · rw [Memory.read_insert _ _ _ _ fun c hc => (Memory.mem_erase.1 hc).2, Memory.read_erase]
    by_cases hb : b = a <;> simp [hb]

theorem Memory.read_write_same (m : Memory) (a : Nat) (v : Byte) : (m.write a v).read a = v := by
  simp [Memory.read_write]

theorem Memory.read_write_other (m : Memory) {a b : Nat} (v : Byte) (h : b ≠ a) :
    (m.write a v).read b = m.read b := by
  simp [Memory.read_write, h]

/-- Bytes written from `base` on read back at their places, and every other address as before. -/
theorem Memory.read_writeBytes (m : Memory) (base b : Nat) (vs : List Byte) :
    (m.writeBytes base vs).read b =
      if base ≤ b then (vs[b - base]?).getD (m.read b) else m.read b := by
  induction vs generalizing m base with
  | nil => simp [Memory.writeBytes]
  | cons v vs ih =>
    rw [Memory.writeBytes, ih, Memory.read_write]
    rcases Nat.lt_trichotomy b base with h | h | h
    · have h1 : ¬ base ≤ b := by omega
      have h2 : ¬ base + 1 ≤ b := by omega
      have h3 : b ≠ base := by omega
      simp [h1, h2, h3]
    · subst h; simp
    · have h1 : base ≤ b := by omega
      have h2 : base + 1 ≤ b := by omega
      have h3 : b ≠ base := by omega
      have h4 : b - base = (b - (base + 1)) + 1 := by omega
      simp [h1, h2, h3, h4]

/-! ## The canonical form -/

theorem Memory.wf_nil : Memory.wf [] := by simp [Memory.wf]

theorem Memory.wf_erase {m : Memory} (h : m.wf) (a : Nat) : (m.erase a).wf :=
  ⟨h.1.filter _, fun c hc => h.2 c (Memory.mem_erase.1 hc).1⟩

/-- Inserting keeps the addresses rising where none of them is the new one. -/
theorem Memory.pairwise_insert {m : Memory} {a : Nat} (v : Byte)
    (h : m.Pairwise fun c d => c.1 < d.1) (ha : ∀ c ∈ m, c.1 ≠ a) :
    (m.insert a v).Pairwise fun c d => c.1 < d.1 := by
  induction m with
  | nil => simp [Memory.insert]
  | cons d m ih =>
    obtain ⟨k, w⟩ := d
    rw [List.pairwise_cons] at h
    unfold Memory.insert
    split
    · next hlt =>
      refine List.pairwise_cons.2 ⟨fun c hc => ?_, List.pairwise_cons.2 h⟩
      rcases List.mem_cons.1 hc with rfl | hc
      · exact hlt
      · exact Nat.lt_trans hlt (h.1 c hc)
    · next hge =>
      have hk : k ≠ a := ha (k, w) (by simp)
      refine List.pairwise_cons.2 ⟨fun c hc => ?_, ih h.2 fun c hc => ha c (by simp [hc])⟩
      rcases Memory.mem_insert.1 hc with rfl | hc
      · show k < a
        omega
      · exact h.1 c hc

/-- A write within storage keeps the canonical form. -/
theorem Memory.wf_write {m : Memory} (h : m.wf) {a : Nat} (ha : a < Config.memSize) (v : Byte) :
    (m.write a v).wf := by
  unfold Memory.write
  split
  · exact Memory.wf_erase h a
  · next hv =>
    have he := Memory.wf_erase h a
    refine ⟨Memory.pairwise_insert v he.1 fun c hc => (Memory.mem_erase.1 hc).2, fun c hc => ?_⟩
    rcases Memory.mem_insert.1 hc with rfl | hc
    · exact ⟨ha, hv⟩
    · exact he.2 c hc

/-- So does writing bytes that end within storage. -/
theorem Memory.wf_writeBytes {m : Memory} (h : m.wf) {base : Nat} (vs : List Byte)
    (hb : base + vs.length ≤ Config.memSize) : (m.writeBytes base vs).wf := by
  induction vs generalizing m base with
  | nil => exact h
  | cons v vs ih =>
    simp only [List.length_cons] at hb
    exact ih (Memory.wf_write h (by omega) v) (by omega)

end Sys2Proof.Machine
end

