-- ==== Sys2Proof/Laws/State.lean ====
section
/-! SUPPORT. One lemma per field per update of the state, and what the two views `reg` and `cell` see of it. -/

namespace Sys2Proof.Machine

@[simp] theorem raiseStop_regs (s : State) (c : StopCause) : (s.raiseStop c).regs = s.regs := rfl
@[simp] theorem raiseStop_mem (s : State) (c : StopCause) : (s.raiseStop c).mem = s.mem := rfl
@[simp] theorem raiseStop_pc (s : State) (c : StopCause) : (s.raiseStop c).pc = s.pc := rfl
@[simp] theorem raiseStop_halted (s : State) (c : StopCause) : (s.raiseStop c).halted = true := rfl
@[simp] theorem raiseStop_stopCause (s : State) (c : StopCause) : (s.raiseStop c).stopCause = c := rfl
@[simp] theorem raiseStop_reg (s : State) (c : StopCause) (q : Nat) : (s.raiseStop c).reg q = s.reg q := rfl
@[simp] theorem raiseStop_cell (s : State) (c : StopCause) (a : Nat) : (s.raiseStop c).cell a = s.cell a := rfl

@[simp] theorem setPc_regs (s : State) (p : Pc) : (s.setPc p).regs = s.regs := rfl
@[simp] theorem setPc_mem (s : State) (p : Pc) : (s.setPc p).mem = s.mem := rfl
@[simp] theorem setPc_pc (s : State) (p : Pc) : (s.setPc p).pc = p := rfl
@[simp] theorem setPc_halted (s : State) (p : Pc) : (s.setPc p).halted = s.halted := rfl
@[simp] theorem setPc_stopCause (s : State) (p : Pc) : (s.setPc p).stopCause = s.stopCause := rfl
@[simp] theorem setPc_reg (s : State) (p : Pc) (q : Nat) : (s.setPc p).reg q = s.reg q := rfl
@[simp] theorem setPc_cell (s : State) (p : Pc) (a : Nat) : (s.setPc p).cell a = s.cell a := rfl

@[simp] theorem advance_regs (s : State) : s.advance.regs = s.regs := rfl
@[simp] theorem advance_mem (s : State) : s.advance.mem = s.mem := rfl
@[simp] theorem advance_pc (s : State) : s.advance.pc = s.pc + 2#9 := rfl
@[simp] theorem advance_halted (s : State) : s.advance.halted = s.halted := rfl
@[simp] theorem advance_stopCause (s : State) : s.advance.stopCause = s.stopCause := rfl
@[simp] theorem advance_reg (s : State) (q : Nat) : s.advance.reg q = s.reg q := rfl
@[simp] theorem advance_cell (s : State) (a : Nat) : s.advance.cell a = s.cell a := rfl

/-- After a fetch `pc` is at most 254, so the advance does not wrap (10_state.md R32). -/
theorem advance_pc_toNat (s : State) (h : s.pc.toNat + 1 < Config.memSize) :
    s.advance.pc.toNat = s.pc.toNat + 2 := by
  simp only [Config.memSize] at h
  simp only [advance_pc, BitVec.toNat_add, BitVec.toNat_ofNat]
  omega

end Sys2Proof.Machine
end

