-- ==== Sys2Proof/Laws/Ops.lean ====
section
/-! SUPPORT. One lemma per shared operation, saying once everything it can do. -/

namespace Sys2Proof.Machine

/-! ## The register file -/

/-- A register number below 16 names a register, and no other does (10_state.md R27). -/
theorem regGet_eq (s : State) (i : Nat) :
    s.regGet i = if i < Config.nreg then some (s.reg i) else none := by
  unfold State.regGet State.reg
  by_cases h : i < 16 <;> simp [Config.nreg, h]

/-- Writing a register: that register holds the value, every other as before (R26). -/
theorem reg_set (s : State) (i : Nat) (v : Byte) (h : i < Config.nreg) (q : Nat) :
    State.reg { s with regs := s.regs.set i v h } q = if q = i then v else s.reg q := by
  unfold State.reg
  by_cases hq : q = i
  · subst hq
    simp [h]
  · simp [Ne.symm hq, hq]

theorem regSet_eq (s : State) (i : Nat) (v : Byte) :
    s.regSet i v = if h : i < Config.nreg then some { s with regs := s.regs.set i v h } else none :=
  rfl

/-! ## The storage interface -/

theorem memRead_eq (s : State) (a : Nat) :
    s.memRead a = if a < Config.memSize then some (s.cell a) else none := rfl

theorem cell_write (s : State) (a : Nat) (v : Byte) (b : Nat) :
    State.cell { s with mem := s.mem.write a v } b = if b = a then v else s.cell b :=
  Memory.read_write s.mem a b v

/-! ## Operands -/

/-- A source register that exists gives its value (R25). -/
theorem withReg_of_lt {i : Nat} (h : i < Config.nreg) (s : State) (k : Byte → Result) :
    withReg i s k = k (s.reg i) := by
  simp only [withReg, regGet_eq, if_pos h]

/-- One that does not exist stops the step (R27). -/
theorem withReg_of_ge {i : Nat} (h : ¬ i < Config.nreg) (s : State) (k : Byte → Result) :
    withReg i s k = .next (s.raiseStop .dataBounds) := by
  simp only [withReg, regGet_eq, if_neg h, stop]

/-- A cell within storage gives its value (20_memory.md R55). -/
theorem withCell_of_lt {a : Nat} (h : a < Config.memSize) (s : State) (k : Byte → Result) :
    withCell a s k = k (s.cell a) := by
  simp only [withCell, memRead_eq, if_pos h]

/-- One outside it stops the step (R55). -/
theorem withCell_of_ge {a : Nat} (h : ¬ a < Config.memSize) (s : State) (k : Byte → Result) :
    withCell a s k = .next (s.raiseStop .dataBounds) := by
  simp only [withCell, memRead_eq, if_neg h, stop]

theorem writeReg_of_lt {i : Nat} (h : i < Config.nreg) (v : Byte) (s : State) :
    writeReg i v s = .next { s with regs := s.regs.set i v h } := by
  simp only [writeReg, regSet_eq, dif_pos h]

theorem writeReg_of_ge {i : Nat} (h : ¬ i < Config.nreg) (v : Byte) (s : State) :
    writeReg i v s = .next (s.raiseStop .dataBounds) := by
  simp only [writeReg, regSet_eq, dif_neg h, stop]

theorem writeCell_of_lt {a : Nat} (h : a < Config.memSize) (v : Byte) (s : State) :
    writeCell a v s = .next { s with mem := s.mem.write a v } := by
  simp only [writeCell, State.memWrite, if_pos h]

theorem writeCell_of_ge {a : Nat} (h : ¬ a < Config.memSize) (v : Byte) (s : State) :
    writeCell a v s = .next (s.raiseStop .dataBounds) := by
  simp only [writeCell, State.memWrite, if_neg h, stop]

theorem binaryOp_of_lt (f : Byte → Byte → Byte) {r s t : Nat} (hr : r < Config.nreg)
    (hs : s < Config.nreg) (ht : t < Config.nreg) (st : State) :
    binaryOp f r s t st = .next { st with regs := st.regs.set r (f (st.reg s) (st.reg t)) hr } := by
  simp only [binaryOp, withReg_of_lt hs, withReg_of_lt ht, writeReg_of_lt hr]

/-- One register that does not exist stops the step, whichever of the three it is. -/
theorem binaryOp_of_ge (f : Byte → Byte → Byte) {r s t : Nat}
    (h : ¬ (r < Config.nreg ∧ s < Config.nreg ∧ t < Config.nreg)) (st : State) :
    binaryOp f r s t st = .next (st.raiseStop .dataBounds) := by
  unfold binaryOp
  by_cases hs : s < Config.nreg
  · rw [withReg_of_lt hs]
    by_cases ht : t < Config.nreg
    · rw [withReg_of_lt ht]
      exact writeReg_of_ge (fun hr => h ⟨hr, hs, ht⟩) _ _
    · exact withReg_of_ge ht _ _
  · exact withReg_of_ge hs _ _

theorem isZero_iff (v : Byte) : isZero v = true ↔ v = 0x00#8 := by
  simp [isZero]

/-! ## Fetch -/

/-- The word at an address, where both of its cells lie in storage (40_cycle.md R102, R103). -/
theorem wordAt_eq (s : State) (a : Nat) :
    s.wordAt a = if a + 1 < Config.memSize then some (s.cell a ++ s.cell (a + 1)) else none := by
  unfold State.wordAt
  rw [memRead_eq, memRead_eq]
  by_cases h : a + 1 < Config.memSize
  · have h' : a < Config.memSize := by omega
    simp only [if_pos h, if_pos h']
  · simp only [if_neg h]
    by_cases h' : a < Config.memSize
    · simp only [if_pos h']
    · simp only [if_neg h']

theorem fetch_eq (s : State) :
    s.fetch = if s.pc.toNat + 1 < Config.memSize
      then some (s.cell s.pc.toNat ++ s.cell (s.pc.toNat + 1)) else none :=
  wordAt_eq s s.pc.toNat

end Sys2Proof.Machine
end

