-- ==== Sys2Proof/Laws/Loader.lean ====
section
/-! SUPPORT. What construction and the load of an image leave in storage, what the loader answers, and the lines of a
program text. -/

namespace Sys2Proof.Machine

theorem Memory.read_filled (v : Byte) {a : Nat} (h : a < Config.memSize) :
    (Memory.filled v).read a = v := by
  unfold Memory.filled
  rw [Memory.read_writeBytes, if_pos (Nat.zero_le a), Nat.sub_zero, List.getElem?_replicate, if_pos h]
  rfl

/-- Bytes that fit storage, written from address 0 on, make a canonical memory. -/
theorem Memory.wf_ofBytes (vs : List Byte) (h : vs.length ≤ Config.memSize) :
    (Memory.writeBytes [] 0 vs).wf :=
  Memory.wf_writeBytes Memory.wf_nil vs (by rw [Nat.zero_add]; exact h)

theorem Memory.wf_filled (v : Byte) : (Memory.filled v).wf :=
  Memory.wf_ofBytes _ (Nat.le_of_eq List.length_replicate)

theorem construct_mem (regFill memFill : Byte) :
    (State.construct regFill memFill).mem = Memory.filled memFill := by
  unfold State.construct
  dsimp only

theorem construct_cell (regFill memFill : Byte) {a : Nat} (h : a < Config.memSize) :
    (State.construct regFill memFill).cell a = memFill := by
  rw [State.cell, construct_mem, Memory.read_filled memFill h]

theorem construct_mem_wf (regFill memFill : Byte) : (State.construct regFill memFill).mem.wf := by
  rw [construct_mem]
  exact Memory.wf_filled memFill

@[simp] theorem loadImage_regs (image : List Byte) (s : State) :
    (loadImage image s).state.regs = s.regs := by
  unfold loadImage
  split <;> rfl

@[simp] theorem loadImage_pc (image : List Byte) (s : State) : (loadImage image s).state.pc = s.pc := by
  unfold loadImage
  split <;> rfl

@[simp] theorem loadImage_halted (image : List Byte) (s : State) :
    (loadImage image s).state.halted = s.halted := by
  unfold loadImage
  split <;> rfl

@[simp] theorem loadImage_stopCause (image : List Byte) (s : State) :
    (loadImage image s).state.stopCause = s.stopCause := by
  unfold loadImage
  split <;> rfl

/-- The bytes of a loaded image at their addresses, and every other cell as before (70_reset_and_hazards.md R233). -/
theorem loadImage_cell (image : List Byte) (s : State) (h : image.length ≤ Config.memSize) (a : Nat) :
    (loadImage image s).state.cell a = (image[a]?).getD (s.cell a) := by
  unfold loadImage
  rw [if_pos h]
  show (s.mem.writeBytes 0 image).read a = _
  rw [Memory.read_writeBytes, if_pos (Nat.zero_le a), Nat.sub_zero]
  rfl

/-- A load keeps the canonical form of storage. -/
theorem loadImage_mem_wf (image : List Byte) (s : State) (h : s.mem.wf) :
    (loadImage image s).state.mem.wf := by
  unfold loadImage
  split
  · next hl =>
    refine Memory.wf_writeBytes h image ?_
    rw [Nat.zero_add]
    exact hl
  · exact h

/-! ## The loader's answer -/

@[simp] theorem loadFile_unreadable (s : State) :
    loadFile .unreadable s = { error := some .unreadable, state := s } := rfl

@[simp] theorem loadFile_text (text : List Char) (s : State) : loadFile (.text text) s = loadText text s := rfl

/-- Everything the load of an image can do. -/
theorem loadImage_cases (image : List Byte) (s : State) :
    (image.length ≤ Config.memSize ∧
      loadImage image s = { error := none, state := { s with mem := s.mem.writeBytes Config.imageBase image } }) ∨
    (Config.memSize < image.length ∧ loadImage image s = { error := some .imageTooLong, state := s }) := by
  by_cases h : image.length ≤ Config.memSize
  · exact .inl ⟨h, if_pos h⟩
  · exact .inr ⟨Nat.lt_of_not_le h, if_neg h⟩

/-- Everything the load of a file can do: fail and leave the state, whatever state it is, or place an image that fits. -/
theorem loadFile_cases (file : ProgramFile) :
    (∃ e, ∀ s, loadFile file s = { error := some e, state := s }) ∨
    (∃ text image, file = .text text ∧ imageOfText text = .ok image ∧ image.length ≤ Config.memSize ∧
      ∀ s, loadFile file s = { error := none, state := { s with mem := s.mem.writeBytes Config.imageBase image } }) := by
  cases file with
  | unreadable => exact .inl ⟨.unreadable, loadFile_unreadable⟩
  | text text =>
    simp only [loadFile_text, loadText]
    cases h : imageOfText text with
    | error e => exact .inl ⟨e, fun _ => rfl⟩
    | ok image =>
      by_cases hl : image.length ≤ Config.memSize
      · exact .inr ⟨text, image, rfl, h, hl, fun _ => if_pos hl⟩
      · exact .inl ⟨.imageTooLong, fun _ => if_neg hl⟩

/-! ## Lines -/

@[simp] theorem linesOf_nil : linesOf [] = [[]] := rfl

@[simp] theorem linesOf_lf (cs : List Char) : linesOf ('\n' :: cs) = [] :: linesOf cs := rfl

@[simp] theorem linesOf_crlf (cs : List Char) : linesOf ('\r' :: '\n' :: cs) = [] :: linesOf cs := rfl

/-- A character that ends no line goes in front of the first line of what follows it. -/
theorem linesOf_cons {c : Char} {cs l : List Char} {ls : List (List Char)} (hlf : c ≠ '\n')
    (hcr : c = '\r' → cs.head? ≠ some '\n') (h : linesOf cs = l :: ls) : linesOf (c :: cs) = (c :: l) :: ls := by
  rw [linesOf, h]
  · exact hlf
  · rintro cs' rfl rfl
    exact hcr rfl rfl

/-- The first line of a text is what `FirstLine` says, and the other lines are those of the rest; at the end of the text
there are none, which is the image of the empty text too. -/
theorem linesOf_firstLine {line rest text : List Char} (h : FirstLine line rest text) :
    ∃ ls, linesOf text = line :: ls ∧ imageOfLines ls = imageOfText rest := by
  obtain ⟨hlf, h⟩ := h
  induction line generalizing text with
  | nil =>
    obtain rfl | ⟨rfl, -⟩ | ⟨rfl, rfl⟩ := h
    · exact ⟨_, rfl, rfl⟩
    · exact ⟨_, rfl, rfl⟩
    · exact ⟨[], rfl, rfl⟩
  | cons c line ih =>
    have hc : c ≠ '\n' := fun e => hlf (e ▸ List.mem_cons_self)
    have hl : '\n' ∉ line := fun m => hlf (List.mem_cons_of_mem c m)
    have hhead : ∀ d more, (d ≠ '\n' ∨ (line = [] → c ≠ '\r')) → c = '\r' → (line ++ d :: more).head? ≠ some '\n' := by
      intro d more hd hcr
      cases line with
      | nil => exact fun e => hd.elim (fun h => h (Option.some.inj e)) (fun h => h rfl hcr)
      | cons x xs => exact fun e => hl (Option.some.inj e ▸ List.mem_cons_self)
    obtain rfl | ⟨rfl, hlast⟩ | ⟨rfl, rfl⟩ := h
    · obtain ⟨ls, h1, h2⟩ := ih hl (.inl rfl)
      exact ⟨ls, linesOf_cons hc (hhead _ _ (.inl (by decide))) h1, h2⟩
    · have hlast' : line.getLast? ≠ some '\r' := by
        cases line with
        | nil => simp
        | cons x xs => simpa using hlast
      obtain ⟨ls, h1, h2⟩ := ih hl (.inr (.inl ⟨rfl, hlast'⟩))
      refine ⟨ls, linesOf_cons hc (hhead _ _ (.inr ?_)) h1, h2⟩
      rintro rfl rfl
      exact hlast rfl
    · obtain ⟨ls, h1, h2⟩ := ih hl (.inr (.inr ⟨rfl, rfl⟩))
      refine ⟨ls, linesOf_cons hc (fun _ e => hl (List.mem_of_mem_head? e)) h1, h2⟩

/-- A line that is not blank gives its bytes or fails the load; the lines after it give theirs, or their failure. -/
theorem imageOfLines_cons {l : List Char} (ls : List (List Char)) (h : l ≠ []) :
    imageOfLines (l :: ls) =
      match bytesOfLine l with
      | .error e => .error e
      | .ok bs => (imageOfLines ls).map (bs ++ ·) := by
  cases l with
  | nil => exact absurd rfl h
  | cons c cs =>
    rw [imageOfLines]
    · cases bytesOfLine (c :: cs) with
      | error e => rfl
      | ok bs => cases imageOfLines ls <;> rfl
    · exact h

end Sys2Proof.Machine
end

