-- ==== Sys2Proof/Laws/PerInstr.lean ====
section
/-! SUPPORT. The family TopNibble: bits 15 to 12 of an instruction's word are its row's opcode (30_encoding.md R81,
R88), whatever its fields. -/

namespace Sys2Proof.Laws.TopNibble

/-- The opcode field of the word of `i` is the opcode of `i`. -/
def Statement (i : Instr) : Prop := opField (encodeWord i) = i.opcode

/-- The top nibble of a nibble before a nibble and a byte. -/
theorem opField_nibble_byte (o a : Nibble) (b : Byte) : opField (o ++ a ++ b) = o := by
  apply BitVec.eq_of_getLsbD_eq
  intro i hi
  simp only [opField, BitVec.getLsbD_append, BitVec.getLsbD_extractLsb']
  interval_cases i <;> rfl

/-- The top nibble of a nibble before twelve bits. -/
theorem opField_twelve (o : Nibble) (x : BitVec 12) : opField (o ++ x) = o := by
  apply BitVec.eq_of_getLsbD_eq
  intro i hi
  simp only [opField, BitVec.getLsbD_append, BitVec.getLsbD_extractLsb']
  interval_cases i <;> rfl

theorem unknown0 (ignored : BitVec 12) : Statement (.unknown0 ignored) := opField_twelve _ _
theorem load (r address : Nat) : Statement (.load r address) := opField_nibble_byte _ _ _
theorem loadi (r : Nat) (literal : Byte) : Statement (.loadi r literal) := opField_nibble_byte _ _ _
theorem store (r address : Nat) : Statement (.store r address) := opField_nibble_byte _ _ _
theorem move (ignored : Nibble) (s t : Nat) : Statement (.move ignored s t) := opField_nibbles _ _ _ _
theorem add (r s t : Nat) : Statement (.add r s t) := opField_nibbles _ _ _ _
theorem add6 (r s t : Nat) : Statement (.add6 r s t) := opField_nibbles _ _ _ _
theorem or (r s t : Nat) : Statement (.or r s t) := opField_nibbles _ _ _ _
theorem and (r s t : Nat) : Statement (.and r s t) := opField_nibbles _ _ _ _
theorem xor (r s t : Nat) : Statement (.xor r s t) := opField_nibbles _ _ _ _
theorem rotate (r : Nat) (amount ignored : Nibble) : Statement (.rotate r amount ignored) :=
  opField_nibbles _ _ _ _
theorem brz (r : Nat) (target : Byte) : Statement (.brz r target) := opField_nibble_byte _ _ _
theorem halt (ignored : BitVec 12) : Statement (.halt ignored) := opField_twelve _ _
theorem unknownD (ignored : BitVec 12) : Statement (.unknownD ignored) := opField_twelve _ _
theorem unknownE (ignored : BitVec 12) : Statement (.unknownE ignored) := opField_twelve _ _
theorem unknownF (ignored : BitVec 12) : Statement (.unknownF ignored) := opField_twelve _ _

end Sys2Proof.Laws.TopNibble
end

