-- ==== Sys2Proof/Laws/Step.lean ====
section
/-! SUPPORT. What a step can do, said once, and how runs are put together. -/

namespace Sys2Proof.Machine

theorem step_of_halted {s : State} (h : s.halted = true) : step s = .next s := by
  simp only [step, cycle, if_pos h]

/-- Every step is one of three: none in the halted state, a failed fetch, or the decoded instruction after the
advance of `pc` (40_cycle.md R101 to R106). -/
theorem step_cases (s : State) :
    (s.halted = true ∧ step s = .next s) ∨
    (s.halted = false ∧ ¬ s.pc.toNat + 1 < Config.memSize ∧ step s = .next (s.raiseStop .fetchBounds)) ∨
    (s.halted = false ∧ s.pc.toNat + 1 < Config.memSize ∧
      step s = exec (decodeWord (s.cell s.pc.toNat ++ s.cell (s.pc.toNat + 1))) s.advance) := by
  cases h : s.halted with
  | true => exact .inl ⟨rfl, step_of_halted h⟩
  | false =>
    by_cases hp : s.pc.toNat + 1 < Config.memSize
    · refine .inr (.inr ⟨rfl, hp, ?_⟩)
      simp only [step, cycle, h, fetch_eq, if_pos hp, Bool.false_eq_true, if_false]
    · refine .inr (.inl ⟨rfl, hp, ?_⟩)
      simp only [step, cycle, h, fetch_eq, if_neg hp, Bool.false_eq_true, if_false, stop]

/-! ## Runs -/

theorem run_zero (s : State) : run 0 s = .next s := rfl

/-- A state with a word placed fetches that word, and its next step runs it. -/
theorem step_withFetchWord (s : State) (w : Nat) :
    step (s.withFetchWord 16 w) = exec (decodeWord (BitVec.ofNat 16 w)) (s.withFetchWord 16 w).advance := by
  have hp : (s.withFetchWord 16 w).pc.toNat + 1 < Config.memSize := by
    unfold State.withFetchWord State.placeWord
    dsimp only
    split
    · assumption
    · decide
  rcases step_cases (s.withFetchWord 16 w) with ⟨h, _⟩ | ⟨_, h, _⟩ | ⟨_, _, h⟩
  · exact absurd h (by simp [State.withFetchWord, State.placeWord])
  · exact absurd hp h
  · have h0 : (s.withFetchWord 16 w).cell (s.withFetchWord 16 w).pc.toNat =
        highByte (BitVec.ofNat 16 w) := by
      simp [State.cell, State.withFetchWord, State.placeWord, Memory.read_writeBytes, bytesOfWord, tableWord_16]
    have h1 : (s.withFetchWord 16 w).cell ((s.withFetchWord 16 w).pc.toNat + 1) =
        lowByte (BitVec.ofNat 16 w) := by
      simp [State.cell, State.withFetchWord, State.placeWord, Memory.read_writeBytes, bytesOfWord, tableWord_16]
    rw [h, h0, h1, highByte_append_lowByte]

theorem run_succ_of_next {s t : State} (h : step s = .next t) (k : Nat) : run (k + 1) s = run k t := by
  simp only [run, h]

theorem core_run_succ (M : Host.Core) (k : Nat) (s : M.State) :
    M.run (k + 1) s = match M.step s with
      | .next t => M.run k t
      | .fault r => .fault r
      | .refused r => .refused r := rfl

/-- `run` is the host's own run of the machine. -/
theorem run_eq_core_run (k : Nat) (s : State) : run k s = Host.Core.run Sys2Proof.core k s := by
  induction k generalizing s with
  | zero => rfl
  | succ k ih =>
    refine Eq.trans ?_ (core_run_succ Sys2Proof.core k s).symm
    rw [run]
    cases h : step s with
    | next t =>
      rw [show Sys2Proof.core.step s = .next t from h]
      exact ih t
    | fault r => rw [show Sys2Proof.core.step s = .fault r from h]; rfl
    | refused r => rw [show Sys2Proof.core.step s = .refused r from h]; rfl

/-- What holds at the start of a run and is kept by every step holds of every state of the run. -/
theorem reaches_induction {P : State → Prop} (hstep : ∀ s t, P s → step s = .next t → P t)
    {s t : State} (hs : P s) (h : Reaches s t) : P t := by
  obtain ⟨k, hk⟩ := h
  induction k generalizing s with
  | zero => cases hk; exact hs
  | succ k ih =>
    rw [run] at hk
    cases hst : step s with
    | next u => rw [hst] at hk; exact ih (hstep s u hs hst) hk
    | fault r => rw [hst] at hk; cases hk
    | refused r => rw [hst] at hk; cases hk

end Sys2Proof.Machine
end

