-- ==== Sys2Proof/Tests/Slice0.lean ====
section
/-! SUPPORT. The model's own tests. Expected results are the spec's: the vectors of 95_test_vectors.md (named by their
id) and the encodings of 41_data_movement.md, 42_alu.md and 43_control.md. The witness theorems at the end show, for
every statement with hypotheses, a state and operands that meet them all. -/

namespace Sys2Proof.Tests

open Sys2Proof.Machine

/-! ## Helpers -/

/-- A running state with some registers, some cells (addresses rising, none 0) and a `pc`. -/
def tst (pc : Pc) (regs : List (Nat × Byte)) (mem : Memory) : State where
  regs := regs.foldl (fun v p => v.setIfInBounds p.1 p.2) (Vector.replicate Config.nreg 0)
  mem := mem
  pc := pc
  halted := false
  stopCause := .none

/-- What is seen of an outcome; nothing where it is no next state. -/
def seen {α : Type} (f : State → α) : Result → Option α
  | .next s => some (f s)
  | .fault _ => none
  | .refused _ => none

/-- The next state of an outcome, and `State.reset` where it is none. -/
def after : Result → State
  | .next s => s
  | .fault _ => State.reset
  | .refused _ => State.reset

theorem eq_next_after {o : Result} (h : (seen (fun _ => ()) o).isSome = true) : o = .next (after o) := by
  cases o with
  | next s => rfl
  | fault r => cases r
  | refused r => simp [seen] at h

/-- One step of a state whose word at `pc` is given by its two bytes. -/
def ran (pc : Pc) (hi lo : Byte) (regs : List (Nat × Byte)) : Result :=
  step (tst pc regs [(pc.toNat, hi), (pc.toNat + 1, lo)])

/-! ## Well-formedness: an ill-formed term for each check -/

/-- A register number of 16, in each register field of each constructor that has one (R27). -/
theorem test_wf_refuses_each_register_field :
    ([.load 16 0, .loadi 16 0, .store 16 0, .move 0 16 0, .move 0 0 16, .add 16 0 0, .add 0 16 0, .add 0 0 16,
      .add6 16 0 0, .add6 0 16 0, .add6 0 0 16, .or 16 0 0, .or 0 16 0, .or 0 0 16, .and 16 0 0, .and 0 16 0,
      .and 0 0 16, .xor 16 0 0, .xor 0 16 0, .xor 0 0 16, .rotate 16 0 0, .brz 16 0] : List Instr).all
      (fun i => !i.registersInRange && !i.wellFormed) = true := by decide

/-- A storage address of 256, in each constructor that has one (R55, R56). -/
theorem test_wf_refuses_each_address_field :
    ([.load 0 256, .store 0 256] : List Instr).all (fun i => !i.addressesInRange && !i.wellFormed) = true := by decide

theorem test_wf_accepts_the_last_register_and_cell :
    (Instr.load 15 255).wellFormed = true ∧ (Instr.add 15 15 15).wellFormed = true := by decide

/-! ## Decoding: a word of each row, bit by bit from its encoding -/

theorem test_decode_load : decodeWord 0b0001_0010_1010_1011 = .load 2 0xAB := by decide
theorem test_decode_loadi : decodeWord 0b0010_1111_1010_1011 = .loadi 15 0xAB := by decide
theorem test_decode_store : decodeWord 0b0011_0001_0000_0110 = .store 1 6 := by decide
theorem test_decode_move : decodeWord 0b0100_1111_0001_0010 = .move 0xF 1 2 := by decide
theorem test_decode_add : decodeWord 0b0101_0001_0011_0100 = .add 1 3 4 := by decide
theorem test_decode_add6 : decodeWord 0b0110_0001_0011_0100 = .add6 1 3 4 := by decide
theorem test_decode_or : decodeWord 0b0111_0100_0001_0010 = .or 4 1 2 := by decide
theorem test_decode_and : decodeWord 0b1000_0011_0001_0010 = .and 3 1 2 := by decide
theorem test_decode_xor : decodeWord 0b1001_0101_0001_0010 = .xor 5 1 2 := by decide
theorem test_decode_rotate : decodeWord 0b1010_0001_0011_0101 = .rotate 1 3 5 := by decide
theorem test_decode_brz : decodeWord 0b1011_0001_0001_0010 = .brz 1 0x12 := by decide
theorem test_decode_halt : decodeWord 0b1100_0000_0000_0000 = .halt 0 := by decide
theorem test_decode_unknown0 : decodeWord 0b0000_0000_0000_0001 = .unknown0 1 := by decide
theorem test_decode_unknownD : decodeWord 0b1101_0000_0000_0000 = .unknownD 0 := by decide
theorem test_decode_unknownE : decodeWord 0b1110_0001_0010_0011 = .unknownE 0x123 := by decide
theorem test_decode_unknownF : decodeWord 0b1111_1111_1111_1111 = .unknownF 0xFFF := by decide

/-- One byte is no instruction, and the bytes after an instruction are left (R91). -/
theorem test_decode_bytes :
    decode [0x12] = .error .truncated ∧ decode [0x12, 0xAB, 0x77] = .ok (.load 2 0xAB, [0x77]) := ⟨rfl, rfl⟩

/-- The words of R92 for `MOVE X2, X1` and `ROTATE X1, #3`. -/
theorem test_encode : encodeWord (.move 0 1 2) = 0x4012 ∧ encodeWord (.rotate 1 3 0) = 0xA130 := by decide

theorem test_table_word : decodeTableWord 16 0x12AB = some (.load 2 0xAB) := by decide

/-- A table row's word runs as the first instruction after reset. -/
theorem test_fetch_word :
    seen (fun s => (s.reg 0, s.pc)) (step (State.reset.withFetchWord 16 0x20FF)) = some (0xFF, 2) := by decide

/-! ## The cycle -/

/-- Y2: the last two cells can be fetched, and `pc` becomes 256. -/
theorem test_fetch_at_the_top : seen (fun s => (s.reg 1, s.pc, s.halted)) (ran 0xFE 0x21 0x01 []) =
    some (0x01, 0x100, false) := by decide

/-- Y3, Y4: a fetch at 256 and at 255 stops, with `pc` as it was. -/
theorem test_fetch_bounds :
    seen (fun s => (s.stopCause, s.pc, s.finalPc)) (step (tst 0x100 [] [])) =
      some (.fetchBounds, 0x100, some 0x100) ∧
    seen (fun s => (s.stopCause, s.pc, s.finalPc)) (step (tst 0xFF [] [])) =
      some (.fetchBounds, 0xFF, some 0xFF) := by decide

/-- Y5: an odd `pc` is legal. -/
theorem test_odd_fetch : seen (fun s => (s.reg 1, s.pc)) (ran 5 0x21 0x07 []) = some (0x07, 7) := by decide

/-- Y7: the empty image stops at address 0. -/
theorem test_empty_image : seen (fun s => (s.stopCause, s.pc, s.finalPc)) (step State.reset) =
    some (.unknownOpcode, 2, some 0) := by decide

/-! ## Instructions -/

/-- M1. -/
theorem test_load : seen (fun s => s.reg 2) (step (tst 0 [] [(0, 0x12), (1, 0xAB), (0xAB, 0x5C)])) = some 0x5C := by
  decide

/-- M3: the LOAD reads its own first byte. -/
theorem test_load_own_byte : seen (fun s => s.reg 1) (ran 0x10 0x11 0x10 []) = some 0x11 := by decide

/-- M6: `r` is the second nibble. -/
theorem test_loadi : seen (fun s => (s.reg 0, s.reg 2)) (ran 0 0x20 0xFF [(2, 0x33)]) = some (0xFF, 0x33) := by decide

/-- M4: the literal 0 writes zero. -/
theorem test_loadi_zero : seen (fun s => s.reg 0) (ran 0 0x20 0x00 [(0, 0x77)]) = some 0x00 := by decide

/-- S2: the last cell, and no register changes. -/
theorem test_store : seen (fun s => (s.cell 0xFF, s.reg 0)) (ran 0 0x30 0xFF [(0, 0x42)]) = some (0x42, 0x42) := by
  decide

/-- S3: the store changes the next instruction. -/
theorem test_store_into_next : seen (fun s => s.fetch)
    (step (tst 0 [(1, 0xC0)] [(0, 0x31), (1, 0x02), (2, 0x22), (3, 0x05)])) = some (some 0xC005) := by decide

/-- V2: `r` is not used. -/
theorem test_move : seen (fun s => (s.reg 2, s.reg 1, s.reg 15)) (ran 0 0x4F 0x12 [(1, 0x3C), (15, 0x55)]) =
    some (0x3C, 0x3C, 0x55) := by decide

/-- A1: the sum wraps. -/
theorem test_add : seen (fun s => s.reg 1) (ran 0 0x51 0x34 [(3, 0xFF), (4, 0x02)]) = some 0x01 := by decide

/-- A6: the destination is both sources. -/
theorem test_add_self : seen (fun s => s.reg 1) (ran 0 0x51 0x11 [(1, 0x81)]) = some 0x02 := by decide

/-- A8. -/
theorem test_add6 : seen (fun s => s.reg 1) (ran 0 0x61 0x34 [(3, 0xFF), (4, 0x02)]) = some 0x01 := by decide

/-- W1. -/
theorem test_or : seen (fun s => s.reg 4) (ran 0 0x74 0x12 [(1, 0xB5), (2, 0x0F)]) = some 0xBF := by decide

/-- W4. -/
theorem test_and : seen (fun s => s.reg 3) (ran 0 0x83 0x12 [(1, 0xB5), (2, 0x0F)]) = some 0x05 := by decide

/-- W7. -/
theorem test_xor : seen (fun s => s.reg 5) (ran 0 0x95 0x12 [(1, 0xB5), (2, 0x0F)]) = some 0xBA := by decide

/-- T7: 15 rotates by 7. -/
theorem test_rotate : seen (fun s => s.reg 1) (ran 0 0xA1 0xF0 [(1, 0xB5)]) = some 0x6B := by decide

/-- T12: the amount is not in `t`. -/
theorem test_rotate_ignores_t : seen (fun s => s.reg 1) (ran 0 0xA1 0x03 [(1, 0xB5)]) = some 0xB5 := by decide

/-- B1. -/
theorem test_brz_taken : seen (fun s => s.pc) (ran 0x0A 0xB1 0x12 []) = some 0x12 := by decide

/-- B7. -/
theorem test_brz_not_taken : seen (fun s => s.pc) (ran 0x0A 0xB1 0x12 [(1, 0xFF)]) = some 0x0C := by decide

/-- H2: the fields of HALT are not read. -/
theorem test_halt : seen (fun s => (s.halted, s.stopCause, s.pc, s.finalPc)) (ran 2 0xCF 0xFF []) =
    some (true, .halt, 4, some 2) := by decide

/-- U1. -/
theorem test_unknown0 : seen (fun s => (s.stopCause, s.pc, s.finalPc)) (ran 4 0x00 0x00 []) =
    some (.unknownOpcode, 6, some 4) := by decide

/-- U2. -/
theorem test_unknownD : seen (fun s => (s.stopCause, s.pc, s.finalPc)) (ran 4 0xD0 0x00 []) =
    some (.unknownOpcode, 6, some 4) := by decide

/-- U3. -/
theorem test_unknownE : seen (fun s => (s.stopCause, s.pc, s.finalPc)) (ran 4 0xE1 0x23 []) =
    some (.unknownOpcode, 6, some 4) := by decide

/-- U4. -/
theorem test_unknownF : seen (fun s => (s.stopCause, s.pc, s.finalPc)) (ran 4 0xFF 0xFF []) =
    some (.unknownOpcode, 6, some 4) := by decide

/-- R42: the codes of the stop causes. -/
theorem test_codes : [StopCause.none, .halt, .unknownOpcode, .fetchBounds, .dataBounds].map StopCause.code =
    [0, 1, 2, 3, 4] := by decide

/-! ## The loader -/

/-- L1, L2. -/
theorem test_text_line : imageOfText ['1', '2', 'A', 'B'] = .ok [0x12, 0xAB] ∧
    imageOfText ['1', '2', 'a', 'b'] = .ok [0x12, 0xAB] := ⟨rfl, rfl⟩

/-- L3, L9. -/
theorem test_text_lines :
    imageOfText ['2', '1', '0', '5', '\n', '\n', 'C', '0', '0', '0'] = .ok [0x21, 0x05, 0xC0, 0x00] ∧
    imageOfText ['2', '1', '0', '5', '\r', '\n', 'C', '0', '0', '0', '\r', '\n'] = .ok [0x21, 0x05, 0xC0, 0x00] :=
  ⟨rfl, rfl⟩

/-- L4, L5, L6. -/
theorem test_text_failures :
    imageOfText ['1', '2', '3'] = .error .wrongLength ∧
    imageOfText ['1', '2', 'G', '4'] = .error .nonHex ∧
    imageOfText ['1', '2', 'A', 'B', ' '] = .error .wrongLength := ⟨rfl, rfl, rfl⟩

/-- L1 loaded. -/
theorem test_load_image : ((loadImage [0x12, 0xAB] State.reset).state.mem) = [(0, 0x12), (1, 0xAB)] := by decide

/-- L4: after a failed load no run begins; R236: nor after a file that cannot be read. -/
theorem test_boot : boot (.text ['1', '2', '3']) = none ∧ boot .unreadable = none ∧
    (boot (.text ['2', '0', 'F', 'F'])).map (fun s => (s.mem, s.pc)) = some ([(0, 0x20), (1, 0xFF)], 0) := by decide

/-- R236: a malformed line after a good one fails the load too. -/
theorem test_text_late_failure :
    imageOfText ['1', '2', 'A', 'B', '\n', '1', '2', '3', '\n'] = .error .wrongLength := rfl

/-! ## Witnesses: states and operands that meet the hypotheses of the statements -/

theorem witness_EncodedInstructionDecodesBack :
    (Instr.store 15 255).wellFormed = true ∧ (Instr.move 9 15 0).wellFormed = true ∧
    (Instr.halt 0xFFF).wellFormed = true := by decide

theorem witness_EveryInstructionIsTwoBytes :
    2 ≤ ([0x12, 0xAB] : List Byte).length ∧ ([0x12] : List Byte).length < 2 := by decide

theorem witness_IgnoredFieldsHaveNoEffect : opField 0xC000 = opField 0xCFFF := by decide

/-- The highest address a fetch succeeds at. -/
theorem witness_StepRunsTheDecodedInstruction :
    (tst 254 [] [(254, 0x21), (255, 0x01)]).halted = false ∧
    (tst 254 [] [(254, 0x21), (255, 0x01)]).pc.toNat + 1 < Config.memSize ∧
    decode [(tst 254 [] [(254, 0x21), (255, 0x01)]).cell 254, (tst 254 [] [(254, 0x21), (255, 0x01)]).cell 255] =
      .ok (.loadi 1 0x01, []) := ⟨rfl, by decide, rfl⟩

/-- The lowest address a fetch fails at. -/
theorem witness_FetchOutsideStorageStops :
    (tst 255 [] []).halted = false ∧ Config.memSize ≤ (tst 255 [] []).pc.toNat + 1 := by decide

theorem witness_HaltedStateIsFinal : ((tst 2 [] []).raiseStop .halt).halted = true := rfl

/-- A step that stops by each of the causes a step can stop by, one that goes on, and one from a halted state. -/
theorem witness_StepSetsHaltedInExactlyThreeCases :
    step (tst 255 [] []) = .next (after (step (tst 255 [] []))) ∧
    ran 254 0xC0 0x00 [] = .next (after (ran 254 0xC0 0x00 [])) ∧
    ran 0 0x0F 0xFF [] = .next (after (ran 0 0x0F 0xFF [])) ∧
    ran 0 0xF0 0x00 [] = .next (after (ran 0 0xF0 0x00 [])) ∧
    ran 0 0xB0 0x00 [] = .next (after (ran 0 0xB0 0x00 [])) ∧
    step ((tst 2 [] []).raiseStop .halt) = .next (after (step ((tst 2 [] []).raiseStop .halt))) := by
  refine ⟨eq_next_after ?_, eq_next_after ?_, eq_next_after ?_, eq_next_after ?_, eq_next_after ?_, eq_next_after ?_⟩ <;>
    decide

theorem witness_StorageChangesOnlyByStore :
    ran 0 0x30 0xFF [(0, 0x42)] = .next (after (ran 0 0x30 0xFF [(0, 0x42)])) ∧
    (after (ran 0 0x30 0xFF [(0, 0x42)])).cell 0xFF ≠ (tst 0 [(0, 0x42)] [(0, 0x30), (1, 0xFF)]).cell 0xFF :=
  ⟨eq_next_after (by decide), by decide⟩

/-- One changed register by the `r` field, and one by the `t` field. -/
theorem witness_RegistersChangeOnlyAsDestination :
    (ran 0 0x2F 0xAB [] = .next (after (ran 0 0x2F 0xAB [])) ∧
      (after (ran 0 0x2F 0xAB [])).reg 15 ≠ (tst 0 [] [(0, 0x2F), (1, 0xAB)]).reg 15) ∧
    (ran 0 0x4F 0x12 [(1, 0x3C)] = .next (after (ran 0 0x4F 0x12 [(1, 0x3C)])) ∧
      (after (ran 0 0x4F 0x12 [(1, 0x3C)])).reg 2 ≠ (tst 0 [(1, 0x3C)] [(0, 0x4F), (1, 0x12)]).reg 2) :=
  ⟨⟨eq_next_after (by decide), by decide⟩, eq_next_after (by decide), by decide⟩

/-- A failed fetch, a taken branch, a branch not taken. -/
theorem witness_PcAfterEveryStep :
    step (tst 256 [] []) = .next (after (step (tst 256 [] []))) ∧
    ran 254 0xB1 0xFF [] = .next (after (ran 254 0xB1 0xFF [])) ∧
    ran 254 0xB1 0xFF [(1, 1)] = .next (after (ran 254 0xB1 0xFF [(1, 1)])) := by
  refine ⟨eq_next_after ?_, eq_next_after ?_, eq_next_after ?_⟩ <;> decide

/-- Steps that stop by a failed fetch and by HALT, and an instruction that stops by its operand. -/
theorem witness_StoppedStepHasNoPartialEffect :
    (step (tst 255 [] []) = .next (after (step (tst 255 [] []))) ∧ (after (step (tst 255 [] []))).halted = true) ∧
    (ran 0 0xC0 0x00 [] = .next (after (ran 0 0xC0 0x00 [])) ∧ (after (ran 0 0xC0 0x00 [])).halted = true) ∧
    (exec (.load 16 0) (tst 0 [] []) = .next (after (exec (.load 16 0) (tst 0 [] []))) ∧
      (after (exec (.load 16 0) (tst 0 [] []))).halted = true) :=
  ⟨⟨eq_next_after (by decide), by decide⟩, ⟨eq_next_after (by decide), by decide⟩, eq_next_after (by decide), by decide⟩

theorem witness_FinalPcIsTheStoppingInstruction :
    (ran 0 0xD0 0x00 [] = .next (after (ran 0 0xD0 0x00 [])) ∧ (after (ran 0 0xD0 0x00 [])).halted = true) ∧
    ((tst 2 [] []).raiseStop .dataBounds).stopCause ∈ [StopCause.halt, .unknownOpcode, .dataBounds] ∧
    ((tst 256 [] []).raiseStop .fetchBounds).stopCause = .fetchBounds ∧ (tst 2 [] []).halted = false :=
  ⟨⟨eq_next_after (by decide), by decide⟩, by decide, rfl, rfl⟩

/-- A state that meets the invariant and has cells and a step. -/
theorem witness_StepKeepsTheInvariant :
    (tst 0 [(1, 7)] [(0, 0x31), (1, 0x80)]).Inv ∧
    ran 0 0x31 0x80 [(1, 7)] = .next (after (ran 0 0x31 0x80 [(1, 7)])) :=
  ⟨⟨by decide, by decide, by decide⟩, eq_next_after (by decide)⟩

theorem witness_EveryRunFromAnyConstructionKeepsTheInvariant :
    Reaches (loadImage [0xC0, 0x00] (State.construct 0 0)).state
      (loadImage [0xC0, 0x00] (State.construct 0 0)).state := ⟨0, rfl⟩

theorem witness_ResetStateHoldsTheResetValues : (15 : Nat) < 16 ∧ (255 : Nat) < 256 := by decide

theorem witness_EndedRunsStopByOneOfThreeCauses :
    (tst 0 [] [(0, 0xC0)]).halted = false ∧
    Reaches (tst 0 [] [(0, 0xC0)]) (after (run 1 (tst 0 [] [(0, 0xC0)]))) ∧
    (after (run 1 (tst 0 [] [(0, 0xC0)]))).halted = true :=
  ⟨rfl, ⟨1, eq_next_after (by decide)⟩, by decide⟩

/-- B4, with the program of P6: `BRZ X0, 0x02` at 2. -/
theorem witness_BranchToItselfNeverStops :
    (tst 2 [] [(2, 0xB0), (3, 0x02)]).halted = false ∧
    (tst 2 [] [(2, 0xB0), (3, 0x02)]).pc.toNat + 1 < Config.memSize ∧
    (tst 2 [] [(2, 0xB0), (3, 0x02)]).cell 2 = 0xB#4 ++ 0x0#4 ∧
    ((tst 2 [] [(2, 0xB0), (3, 0x02)]).cell 3).toNat = 2 ∧
    (tst 2 [] [(2, 0xB0), (3, 0x02)]).reg 0 = 0x00 := by decide

/-- The first numbers out of range, and the last ones in range. -/
theorem witness_OutOfRangeOperandStops :
    (Instr.add 0 16 0).wellFormed = false ∧ (Instr.store 0 256).wellFormed = false ∧
    (Instr.load 15 255).wellFormed = true := by decide

/-! The hypotheses on register numbers and addresses, met at the ends of their ranges; `witness_Executes` below meets
those of every `Executes` clause. -/

theorem witness_ConstructionFillsRegistersAndCells : (15 : Nat) < 16 ∧ (255 : Nat) < 256 := by decide
theorem witness_LoadCopiesCellIntoRegister : ((15 : Nat) < 16 ∧ (255 : Nat) < 256) ∧ (256 : Nat) ≤ 256 := by decide
theorem witness_LoadiWritesTheLiteral : (15 : Nat) < 16 := by decide
theorem witness_StoreCopiesRegisterIntoCell :
    ((15 : Nat) < 16 ∧ (255 : Nat) < 256 ∧ (254 : Nat) + 1 < 256) ∧ (256 : Nat) ≤ 256 := by decide
theorem witness_MoveCopiesRegister : (15 : Nat) < 16 ∧ (0 : Nat) < 16 := by decide
theorem witness_AluLogicWorksBitByBit : (7 : Nat) < 8 := by decide
theorem witness_RotateMovesEveryBit : (7 : Nat) < 8 := by decide
theorem witness_AddWritesTheSum : (15 : Nat) < 16 ∧ (0 : Nat) < 16 ∧ (15 : Nat) < 16 := by decide
theorem witness_AddSixEqualsAdd : (15 : Nat) < 16 ∧ (0 : Nat) < 16 ∧ (15 : Nat) < 16 := by decide
theorem witness_OrWritesTheDisjunction : (15 : Nat) < 16 ∧ (0 : Nat) < 16 ∧ (15 : Nat) < 16 := by decide
theorem witness_AndWritesTheConjunction : (15 : Nat) < 16 ∧ (0 : Nat) < 16 ∧ (15 : Nat) < 16 := by decide
theorem witness_XorWritesTheDifference : (15 : Nat) < 16 ∧ (0 : Nat) < 16 ∧ (15 : Nat) < 16 := by decide
theorem witness_RotateTurnsTheRegisterRight : (15 : Nat) < 16 ∧ (7 : Nat) < 8 := by decide
theorem witness_RotationsReturnTheRegister : (15 : Nat) < 16 ∧ (0 : Nat) ≤ 8 ∧ (8 : Nat) ≤ 8 := by decide
theorem witness_LoadReadsTheLastStore :
    (15 : Nat) < 16 ∧ (0 : Nat) < 16 ∧ (255 : Nat) < 256 ∧ (0 : Nat) < 256 := by decide

/-- Words that each `Executes` clause is about, fetched by a running state: one for each row (the first byte at 0). -/
theorem witness_Executes :
    ([0x1F, 0x2F, 0x3F, 0x4F, 0x5F, 0x6F, 0x7F, 0x8F, 0x9F, 0xAF, 0xBF, 0xCF, 0x0F, 0xDF, 0xEF, 0xFF] : List Byte).all
      (fun b => !(tst 0 [] [(0, b), (1, 0xFF)]).halted &&
        decide ((tst 0 [] [(0, b), (1, 0xFF)]).pc.toNat + 1 < Config.memSize) &&
        decide ((tst 0 [] [(0, b), (1, 0xFF)]).fetch = some (b ++ 0xFF#8))) = true := by decide

/-- A register that is 0 and one that is not. -/
theorem witness_BrzBranchesExactlyOnZero :
    (15 : Nat) < 16 ∧ (tst 2 [(1, 1)] []).reg 15 = 0x00 ∧ (tst 2 [(1, 1)] []).reg 1 ≠ 0x00 := by decide

theorem witness_HaltStopsTheMachine :
    exec (.halt 0xFFF) (tst 4 [] []) = .next ((tst 4 [] []).raiseStop .halt) := rfl

theorem witness_UnknownOpcodesStopTheMachine :
    Instr.unknownE 0x123 ∈ [Instr.unknown0 0x123, .unknownD 0x123, .unknownE 0x123, .unknownF 0x123] := by decide

/-- A STORE at the highest address that leaves a next instruction, into that instruction's last cell. -/
theorem witness_StoreIsSeenByTheNextFetch :
    (tst 252 [] [(252, 0x3F), (253, 0xFF)]).halted = false ∧
    (tst 252 [] [(252, 0x3F), (253, 0xFF)]).pc.toNat + 3 < 256 ∧
    (tst 252 [] [(252, 0x3F), (253, 0xFF)]).cell 252 = 0x3#4 ++ 0xF#4 ∧
    (tst 252 [] [(252, 0x3F), (253, 0xFF)]).cell 253 = 0xFF := by decide

/-- A canonical memory with its first and last cell listed; it reads as itself at every address. -/
theorem witness_CanonicalMemoriesThatReadAlikeAreEqual :
    Memory.wf [(0, 0x01), (255, 0xFF)] ∧
    ∀ a : Nat, Memory.read [(0, 0x01), (255, 0xFF)] a = Memory.read [(0, 0x01), (255, 0xFF)] a :=
  ⟨by decide, fun _ => rfl⟩

/-- Two states that differ in a register and a cell the instruction does not name. -/
theorem witness_ResultsDependOnlyOnNamedOperands :
    (∀ q ∈ (Instr.load 1 9).registers, (tst 2 [(0, 5)] [(8, 1)]).reg q = (tst 2 [(0, 6)] []).reg q) ∧
    (∀ a ∈ (Instr.load 1 9).addresses, (tst 2 [(0, 5)] [(8, 1)]).cell a = (tst 2 [(0, 6)] []).cell a) ∧
    (tst 2 [(0, 5)] [(8, 1)]).pc = (tst 2 [(0, 6)] []).pc ∧
    exec (.load 1 9) (tst 2 [(0, 5)] [(8, 1)]) = .next (after (exec (.load 1 9) (tst 2 [(0, 5)] [(8, 1)]))) ∧
    exec (.load 1 9) (tst 2 [(0, 6)] []) = .next (after (exec (.load 1 9) (tst 2 [(0, 6)] []))) ∧
    SameStatus (tst 2 [(0, 5)] [(8, 1)]) (tst 2 [(0, 6)] []) :=
  ⟨by decide, by decide, rfl, eq_next_after (by decide), eq_next_after (by decide), rfl, rfl⟩

theorem witness_OutputsShowTheFinalState :
    ((tst 4 [] []).raiseStop .halt).finalPc = some 2 ∧ (tst 4 [] []).halted = false := by decide

/-- An image that fills storage, and one that is one byte too long. -/
theorem witness_ImageIsPlacedWholeOrNotAtAll :
    (List.replicate 256 (0xC0 : Byte)).length ≤ 256 ∧ 256 < (List.replicate 257 (0xC0 : Byte)).length :=
  ⟨Nat.le_of_eq List.length_replicate, Nat.lt_of_lt_of_eq (Nat.lt_succ_self 256) List.length_replicate.symm⟩

/-- A first line for each clause and each way a line ends: blank, of four digits, of three characters with a carriage
return before the line feed, and of four with a carriage return that is no part of a line's end. -/
theorem witness_EachTextLineGivesTwoBytes :
    FirstLine [] ['1'] ['\n', '1'] ∧
    (FirstLine ['0', '9', 'A', 'f'] [] ['0', '9', 'A', 'f'] ∧
      hexDigit '0' = some 0x0 ∧ hexDigit '9' = some 0x9 ∧ hexDigit 'A' = some 0xA ∧ hexDigit 'f' = some 0xF) ∧
    (FirstLine ['1', '2', '3'] ['4'] ['1', '2', '3', '\r', '\n', '4'] ∧ ['1', '2', '3'] ≠ [] ∧
      ['1', '2', '3'].length ≠ 4) ∧
    (FirstLine ['1', '\r', '3', '4'] ['5'] ['1', '\r', '3', '4', '\n', '5'] ∧ ['1', '\r', '3', '4'].length = 4 ∧
      ∃ c ∈ ['1', '\r', '3', '4'], hexDigit c = none) :=
  ⟨⟨by decide, .inr (.inl ⟨rfl, by decide⟩)⟩,
    ⟨⟨by decide, .inr (.inr ⟨rfl, rfl⟩)⟩, by decide, by decide, by decide, by decide⟩,
    ⟨⟨by decide, .inl rfl⟩, by decide, by decide⟩,
    ⟨by decide, .inr (.inl ⟨rfl, by decide⟩)⟩, rfl, '\r', by simp, by decide⟩

theorem witness_FailedLoadLeavesTheState :
    (loadFile (.text ['1', '2', '3']) State.reset).error ≠ none ∧
    (loadFile (.text ['C', '0', '0', '0']) State.reset).error = none := by decide

end Sys2Proof.Tests
end

section
/-! SUPPORT. What the execute part of a step can do, said once for all instructions. -/

namespace Sys2Proof

/-- The register an instruction writes, if it writes one (10_state.md R23). -/
def Instr.destination : Instr → Option Nat
  | .load r _ => some r
  | .loadi r _ => some r
  | .move _ _ t => some t
  | .add r _ _ => some r
  | .add6 r _ _ => some r
  | .or r _ _ => some r
  | .and r _ _ => some r
  | .xor r _ _ => some r
  | .rotate r _ _ => some r
  | .store _ _ => none
  | .brz _ _ => none
  | .unknown0 _ => none
  | .halt _ => none
  | .unknownD _ => none
  | .unknownE _ => none
  | .unknownF _ => none

theorem Instr.destination_mem_registers {i : Instr} {r : Nat} (h : i.destination = some r) :
    r ∈ i.registers := by
  cases i <;> simp_all [Instr.destination, Instr.registers]

theorem Instr.wellFormed_iff (i : Instr) :
    i.wellFormed = true ↔
      (∀ r ∈ i.registers, r < Config.nreg) ∧ ∀ a ∈ i.addresses, a < Config.memSize := by
  simp [Instr.wellFormed, Instr.registersInRange, Instr.addressesInRange]

theorem Instr.not_wellFormed_of_register {i : Instr} {r : Nat} (hr : r ∈ i.registers)
    (h : ¬ r < Config.nreg) : ¬ i.wellFormed = true :=
  fun hi => h ((i.wellFormed_iff.1 hi).1 r hr)

theorem Instr.not_wellFormed_of_address {i : Instr} {a : Nat} (ha : a ∈ i.addresses)
    (h : ¬ a < Config.memSize) : ¬ i.wellFormed = true :=
  fun hi => h ((i.wellFormed_iff.1 hi).2 a ha)

namespace Machine

/-- The answers an instruction can give in a state, each with the instructions that can give it: one write of the
destination register, of the cell of a STORE or of `pc` by a taken branch; nothing; or one of three stops. -/
inductive ExecEffect (i : Instr) (s : State) : Result → Prop where
  | registerWritten {r : Nat} (v : Byte) (hr : r < Config.nreg) (hi : i.destination = some r) :
      ExecEffect i s (.next { s with regs := s.regs.set r v hr })
  | cellWritten {r a : Nat} (hr : r < Config.nreg) (ha : a < Config.memSize) (hi : i = .store r a) :
      ExecEffect i s (.next { s with mem := s.mem.write a (s.reg r) })
  | branched {r : Nat} {target : Byte} (hr : r < Config.nreg) (hi : i = .brz r target)
      (hz : s.reg r = 0x00#8) : ExecEffect i s (.next (s.setPc (branchTarget target)))
  | notBranched {r : Nat} {target : Byte} (hr : r < Config.nreg) (hi : i = .brz r target)
      (hz : s.reg r ≠ 0x00#8) : ExecEffect i s (.next s)
  | halt {x : BitVec 12} (hi : i = .halt x) : ExecEffect i s (.next (s.raiseStop .halt))
  | unknownOpcode (hi : i.opcode ∈ [0x0#4, 0xD#4, 0xE#4, 0xF#4]) :
      ExecEffect i s (.next (s.raiseStop .unknownOpcode))
  | dataBounds (hi : ¬ i.wellFormed = true) : ExecEffect i s (.next (s.raiseStop .dataBounds))

/-! ## One rule per operand form -/

section Operands

variable {i : Instr} {s : State}

theorem withReg_effect {r : Nat} {k : Byte → Result} (hr : r ∈ i.registers)
    (hk : r < Config.nreg → ExecEffect i s (k (s.reg r))) : ExecEffect i s (withReg r s k) := by
  by_cases h : r < Config.nreg
  · rw [withReg_of_lt h]
    exact hk h
  · rw [withReg_of_ge h]
    exact .dataBounds (Instr.not_wellFormed_of_register hr h)

theorem withCell_effect {a : Nat} {k : Byte → Result} (ha : a ∈ i.addresses)
    (hk : ExecEffect i s (k (s.cell a))) : ExecEffect i s (withCell a s k) := by
  by_cases h : a < Config.memSize
  · rw [withCell_of_lt h]
    exact hk
  · rw [withCell_of_ge h]
    exact .dataBounds (Instr.not_wellFormed_of_address ha h)

theorem writeReg_effect {r : Nat} (v : Byte) (hi : i.destination = some r) :
    ExecEffect i s (writeReg r v s) := by
  by_cases h : r < Config.nreg
  · rw [writeReg_of_lt h]
    exact .registerWritten v h hi
  · rw [writeReg_of_ge h]
    exact .dataBounds (Instr.not_wellFormed_of_register (Instr.destination_mem_registers hi) h)

theorem writeCell_effect {r a : Nat} (hr : r < Config.nreg) (hi : i = .store r a) :
    ExecEffect i s (writeCell a (s.reg r) s) := by
  by_cases h : a < Config.memSize
  · rw [writeCell_of_lt h]
    exact .cellWritten hr h hi
  · rw [writeCell_of_ge h]
    exact .dataBounds (Instr.not_wellFormed_of_address (by simp [hi, Instr.addresses]) h)

theorem binaryOp_effect (f : Byte → Byte → Byte) {r p q : Nat} (hi : i.destination = some r)
    (hp : p ∈ i.registers) (hq : q ∈ i.registers) : ExecEffect i s (binaryOp f r p q s) :=
  withReg_effect hp fun _ => withReg_effect hq fun _ => writeReg_effect _ hi

end Operands

/-! ## Every instruction -/

theorem execBrz_effect (r : Nat) (target : Byte) (s : State) :
    ExecEffect (.brz r target) s (execBrz r target s) := by
  refine withReg_effect (by simp [Instr.registers]) fun hr => ?_
  by_cases hz : s.reg r = 0x00#8
  · rw [if_pos ((isZero_iff _).2 hz)]
    exact .branched hr rfl hz
  · rw [if_neg (mt (isZero_iff _).1 hz)]
    exact .notBranched hr rfl hz

/-- Whatever the instruction and the state, the answer is one of `ExecEffect`. -/
theorem exec_effect (i : Instr) (s : State) : ExecEffect i s (exec i s) := by
  cases i with
  | load r a => exact withCell_effect (by simp [Instr.addresses]) (writeReg_effect _ rfl)
  | loadi r v => exact writeReg_effect _ rfl
  | store r a => exact withReg_effect (by simp [Instr.registers]) fun hr => writeCell_effect hr rfl
  | move x p q => exact withReg_effect (by simp [Instr.registers]) fun _ => writeReg_effect _ rfl
  | add r p q => exact binaryOp_effect _ rfl (by simp [Instr.registers]) (by simp [Instr.registers])
  | add6 r p q => exact binaryOp_effect _ rfl (by simp [Instr.registers]) (by simp [Instr.registers])
  | or r p q => exact binaryOp_effect _ rfl (by simp [Instr.registers]) (by simp [Instr.registers])
  | and r p q => exact binaryOp_effect _ rfl (by simp [Instr.registers]) (by simp [Instr.registers])
  | xor r p q => exact binaryOp_effect _ rfl (by simp [Instr.registers]) (by simp [Instr.registers])
  | rotate r n x => exact withReg_effect (by simp [Instr.registers]) fun _ => writeReg_effect _ rfl
  | brz r target => exact execBrz_effect r target s
  | halt x => exact .halt rfl
  | unknown0 x => exact .unknownOpcode (by simp [Instr.opcode])
  | unknownD x => exact .unknownOpcode (by simp [Instr.opcode])
  | unknownE x => exact .unknownOpcode (by simp [Instr.opcode])
  | unknownF x => exact .unknownOpcode (by simp [Instr.opcode])

end Machine

end Sys2Proof
end

section
/-! SUPPORT. The invariant: construction and the load of an image give it, every step keeps it. -/

namespace Sys2Proof.Machine

theorem branchTarget_toNat (target : Byte) : (branchTarget target).toNat = target.toNat := by
  rw [branchTarget, BitVec.toNat_setWidth]
  omega

theorem State.Inv.raiseStop {s : State} (hs : s.Inv) {c : StopCause} (hc : c ≠ .none) :
    (s.raiseStop c).Inv where
  mem_wf := hs.mem_wf
  pc_range := hs.pc_range
  halted_iff := ⟨fun _ => hc, fun _ => rfl⟩

/-- A fetch succeeds only with `pc` at most 254, so the advanced `pc` is at most 256 (10_state.md R32). -/
theorem State.Inv.advance {s : State} (hs : s.Inv) (hp : s.pc.toNat + 1 < Config.memSize) :
    s.advance.Inv where
  mem_wf := hs.mem_wf
  pc_range := by
    rw [advance_pc_toNat s hp]
    omega
  halted_iff := hs.halted_iff

/-- A branch target is a byte, so `pc` stays in [0, 256] (10_state.md R32). -/
theorem State.Inv.setPc_branchTarget {s : State} (hs : s.Inv) (target : Byte) :
    (s.setPc (branchTarget target)).Inv where
  mem_wf := hs.mem_wf
  pc_range := by
    rw [setPc_pc, branchTarget_toNat]
    exact target.isLt.le
  halted_iff := hs.halted_iff

theorem exec_keeps_inv {i : Instr} {s t : State} (hs : s.Inv) (h : exec i s = .next t) : t.Inv := by
  have heffect := exec_effect i s
  rw [h] at heffect
  cases heffect with
  | registerWritten v hr hi => exact ⟨hs.mem_wf, hs.pc_range, hs.halted_iff⟩
  | cellWritten hr ha hi => exact ⟨Memory.wf_write hs.mem_wf ha _, hs.pc_range, hs.halted_iff⟩
  | branched hr hi hz => exact hs.setPc_branchTarget _
  | notBranched hr hi hz => exact hs
  | halt hi => exact hs.raiseStop (by decide)
  | unknownOpcode hi => exact hs.raiseStop (by decide)
  | dataBounds hi => exact hs.raiseStop (by decide)

theorem step_keeps_inv {s t : State} (hs : s.Inv) (h : step s = .next t) : t.Inv := by
  rcases step_cases s with ⟨_, hstep⟩ | ⟨_, _, hstep⟩ | ⟨_, hp, hstep⟩ <;> rw [hstep] at h
  · cases h
    exact hs
  · cases h
    exact hs.raiseStop (by decide)
  · exact exec_keeps_inv (hs.advance hp) h

theorem construct_inv (regFill memFill : Byte) : (State.construct regFill memFill).Inv where
  mem_wf := construct_mem_wf regFill memFill
  pc_range := Nat.zero_le _
  halted_iff := by simp [State.construct]

theorem State.Inv.loadImage {s : State} (hs : s.Inv) (image : List Byte) :
    (loadImage image s).state.Inv where
  mem_wf := loadImage_mem_wf image s hs.mem_wf
  pc_range := by
    rw [loadImage_pc]
    exact hs.pc_range
  halted_iff := by
    rw [loadImage_halted, loadImage_stopCause]
    exact hs.halted_iff

theorem reaches_keeps_inv {s t : State} (hs : s.Inv) (h : Reaches s t) : t.Inv :=
  reaches_induction (fun _ _ => step_keeps_inv) hs h

/-- Settles O18: construction meets the invariant, the load of an image and every step keep it. -/
theorem everyRunFromAnyConstructionKeepsTheInvariant :
    Obligations.EveryRunFromAnyConstructionKeepsTheInvariant :=
  fun regFill memFill image _ hreach =>
    reaches_keeps_inv ((construct_inv regFill memFill).loadImage image) hreach

end Sys2Proof.Machine
end

section
/-! SUPPORT. The fields of a fetched word in terms of its two bytes, and what decoding guarantees of every word. -/

namespace Sys2Proof

theorem opField_bytes (first second : Byte) :
    (opField (first ++ second)).toNat = first.toNat / 16 := by
  have hfield : opField (first ++ second) = first.extractLsb' 4 4 := by
    apply BitVec.eq_of_getLsbD_eq
    intro i hi
    simp only [opField, BitVec.getLsbD_append, BitVec.getLsbD_extractLsb']
    interval_cases i <;> rfl
  rw [hfield, BitVec.extractLsb'_toNat, Nat.shiftRight_eq_div_pow]
  exact Nat.mod_eq_of_lt (Nat.div_lt_of_lt_mul first.isLt)

theorem rField_bytes (first second : Byte) :
    (rField (first ++ second)).toNat = first.toNat % 16 := by
  have hfield : rField (first ++ second) = first.extractLsb' 0 4 := by
    apply BitVec.eq_of_getLsbD_eq
    intro i hi
    simp only [rField, BitVec.getLsbD_append, BitVec.getLsbD_extractLsb']
    interval_cases i <;> rfl
  rw [hfield, BitVec.extractLsb'_toNat, Nat.shiftRight_zero]

theorem addressField_bytes (first second : Byte) : addressField (first ++ second) = second := by
  apply BitVec.eq_of_getLsbD_eq
  intro i hi
  simp only [addressField, sField, tField, BitVec.getLsbD_append, BitVec.getLsbD_extractLsb']
  interval_cases i <;> rfl

/-- The decoded instruction is of the row the word's opcode field selects (30_encoding.md R88, R90). -/
theorem decodeWord_opcode (w : Word) : (decodeWord w).opcode = opField w := by
  have hlt := (opField w).isLt
  apply BitVec.eq_of_toNat_eq
  unfold decodeWord
  split
  case h_16 =>
    show 15 = (opField w).toNat
    simp only [imp_false] at *
    omega
  all_goals exact Eq.symm ‹_›

/-- A four-bit field names a register and an eight-bit field names a cell (10_state.md R27, 20_memory.md R55). -/
theorem decodeWord_wellFormed (w : Word) : (decodeWord w).wellFormed = true := by
  have hreg (n : Nibble) : n.toNat < Config.nreg := n.isLt
  have hcell (b : Byte) : b.toNat < Config.memSize := b.isLt
  rw [Instr.wellFormed_iff]
  unfold decodeWord
  split <;> simp [Instr.registers, Instr.addresses, hreg, hcell]

theorem decodeWord_of_opField_brz {w : Word} (h : (opField w).toNat = 0xB) :
    decodeWord w = .brz (rField w).toNat (addressField w) := by
  simp only [decodeWord, h]

theorem Instr.opcode_of_destination {i : Instr} {r : Nat} (h : i.destination = some r) :
    i.opcode.toNat ∈ [0x1, 0x2, 0x4, 0x5, 0x6, 0x7, 0x8, 0x9, 0xA] := by
  cases i <;> simp_all [Instr.destination, Instr.opcode]

end Sys2Proof
end

section
/-! SUPPORT. How an instruction leaves the status and `pc`, and how one with an operand outside the bounds stops. -/

namespace Sys2Proof.Machine

/-! ## The status -/

/-- An instruction within the bounds is HALT, is no instruction of the table, or leaves the status as it was
(10_state.md R36). -/
theorem exec_status_cases {i : Instr} {s t : State} (hi : i.wellFormed = true) (h : exec i s = .next t) :
    (i.opcode.toNat = 0xC ∧ t = s.raiseStop .halt) ∨
    (i.opcode.toNat ∈ [0x0, 0xD, 0xE, 0xF] ∧ t = s.raiseStop .unknownOpcode) ∨
    (i.opcode.toNat ∈ [0x1, 0x2, 0x3, 0x4, 0x5, 0x6, 0x7, 0x8, 0x9, 0xA, 0xB] ∧ SameStatus s t) := by
  have heffect := exec_effect i s
  rw [h] at heffect
  cases heffect with
  | registerWritten v hr hd =>
    have hop := Instr.opcode_of_destination hd
    refine .inr (.inr ⟨?_, rfl, rfl⟩)
    simp only [List.mem_cons, List.not_mem_nil, or_false] at hop ⊢
    omega
  | cellWritten hr ha hstore => exact .inr (.inr ⟨by simp [hstore, Instr.opcode], rfl, rfl⟩)
  | branched hr hbrz hz => exact .inr (.inr ⟨by simp [hbrz, Instr.opcode], rfl, rfl⟩)
  | notBranched hr hbrz hz => exact .inr (.inr ⟨by simp [hbrz, Instr.opcode], rfl, rfl⟩)
  | halt hhalt => exact .inl ⟨by simp [hhalt, Instr.opcode], rfl⟩
  | unknownOpcode hop => exact .inr (.inl ⟨List.mem_map_of_mem (f := BitVec.toNat) hop, rfl⟩)
  | dataBounds hbad => exact absurd hi hbad

/-! ## The program counter -/

theorem exec_pc_of_opcode_ne_brz {i : Instr} {s t : State} (hi : i.opcode.toNat ≠ 0xB)
    (h : exec i s = .next t) : t.pc = s.pc := by
  have heffect := exec_effect i s
  rw [h] at heffect
  cases heffect with
  | branched hr hbrz hz => exact absurd (by rw [hbrz]; rfl) hi
  | registerWritten v hr hd => rfl
  | cellWritten hr ha hstore => rfl
  | notBranched hr hbrz hz => rfl
  | halt hhalt => rfl
  | unknownOpcode hop => rfl
  | dataBounds hbad => rfl

/-- BRZ on a register that exists (43_control.md R170). -/
theorem exec_brz_of_lt {r : Nat} (hr : r < Config.nreg) (target : Byte) (s : State) :
    exec (.brz r target) s = .next (if s.reg r = 0x00#8 then s.setPc (branchTarget target) else s) := by
  show withReg r s _ = _
  simp only [withReg_of_lt hr, isZero_iff]

/-! ## Operands outside the bounds -/

theorem withReg_eq_dataBounds {r : Nat} {s : State} {k : Byte → Result}
    (hk : r < Config.nreg → k (s.reg r) = .next (s.raiseStop .dataBounds)) :
    withReg r s k = .next (s.raiseStop .dataBounds) := by
  by_cases h : r < Config.nreg
  · rw [withReg_of_lt h, hk h]
  · exact withReg_of_ge h s k

theorem withCell_eq_dataBounds {a : Nat} {s : State} {k : Byte → Result}
    (hk : a < Config.memSize → k (s.cell a) = .next (s.raiseStop .dataBounds)) :
    withCell a s k = .next (s.raiseStop .dataBounds) := by
  by_cases h : a < Config.memSize
  · rw [withCell_of_lt h, hk h]
  · exact withCell_of_ge h s k

/-- Whichever operand lies outside the bounds, the instruction stops and writes nothing (10_state.md R27,
20_memory.md R55, R56). -/
theorem exec_of_not_wellFormed {i : Instr} (h : i.wellFormed = false) (s : State) :
    exec i s = .next (s.raiseStop .dataBounds) := by
  rw [← Bool.not_eq_true, Instr.wellFormed_iff] at h
  cases i <;> simp only [Instr.registers, Instr.addresses, List.forall_mem_cons, List.not_mem_nil, false_imp_iff,
    implies_true, and_true, not_true_eq_false] at h
  case load r a => exact withCell_eq_dataBounds fun ha => writeReg_of_ge (fun hr => h ⟨hr, ha⟩) _ _
  case loadi r v => exact writeReg_of_ge h _ _
  case store r a => exact withReg_eq_dataBounds fun hr => writeCell_of_ge (fun ha => h ⟨hr, ha⟩) _ _
  case move x p q => exact withReg_eq_dataBounds fun hp => writeReg_of_ge (fun hq => h ⟨hp, hq⟩) _ _
  case add r p q => exact binaryOp_of_ge _ h s
  case add6 r p q => exact binaryOp_of_ge _ h s
  case or r p q => exact binaryOp_of_ge _ h s
  case and r p q => exact binaryOp_of_ge _ h s
  case xor r p q => exact binaryOp_of_ge _ h s
  case rotate r n x => exact withReg_of_ge h _ _
  case brz r target => exact withReg_of_ge h _ _

theorem exec_answers_next (i : Instr) (s : State) : ∃ t, exec i s = .next t := by
  have heffect := exec_effect i s
  generalize exec i s = o at heffect ⊢
  cases heffect <;> exact ⟨_, rfl⟩

end Sys2Proof.Machine
end

section
/-! SUPPORT. An instruction makes one write, and which one is settled by the registers and cells it names: the same
write in every state that agrees on those (00_scope.md R19, 10_state.md R23, 20_memory.md R58). -/

namespace Sys2Proof.Machine

/-- What an instruction does to a state, said without the state. -/
inductive Write where
  | nothing
  | register (r : Nat) (v : Byte) (hr : r < Config.nreg)
  | cell (a : Nat) (v : Byte)
  | pc (p : Pc)
  | stop (c : StopCause) (hc : c ≠ .none)

def Write.apply : Write → State → State
  | .nothing, s => s
  | .register r v hr, s => { s with regs := s.regs.set r v hr }
  | .cell a v, s => { s with mem := s.mem.write a v }
  | .pc p, s => s.setPc p
  | .stop c _, s => s.raiseStop c

/-! ## States a write does not tell apart stay so -/

section Congruence

variable (u : Write) {s s' : State}

theorem Write.apply_reg_congr {q : Nat} (h : s.reg q = s'.reg q) : (u.apply s).reg q = (u.apply s').reg q := by
  cases u with
  | register r v hr => simp only [Write.apply, reg_set, h]
  | nothing => exact h
  | cell a v => exact h
  | pc p => exact h
  | stop c hc => exact h

theorem Write.apply_cell_congr {a : Nat} (h : s.cell a = s'.cell a) : (u.apply s).cell a = (u.apply s').cell a := by
  cases u with
  | cell b v => simp only [Write.apply, cell_write, h]
  | nothing => exact h
  | register r v hr => exact h
  | pc p => exact h
  | stop c hc => exact h

theorem Write.apply_pc_congr (h : s.pc = s'.pc) : (u.apply s).pc = (u.apply s').pc := by
  cases u with
  | pc p => rfl
  | nothing => exact h
  | register r v hr => exact h
  | cell a v => exact h
  | stop c hc => exact h

theorem Write.apply_status_congr (h : SameStatus s s') : SameStatus (u.apply s) (u.apply s') := by
  cases u with
  | stop c hc => exact ⟨rfl, rfl⟩
  | nothing => exact h
  | register r v hr => exact h
  | cell a v => exact h
  | pc p => exact h

end Congruence

/-! ## One write for all states that agree on the operands -/

/-- The two states agree on the registers and cells the instruction names. -/
structure SameOperands (i : Instr) (s s' : State) : Prop where
  reg : ∀ q ∈ i.registers, s.reg q = s'.reg q
  cell : ∀ a ∈ i.addresses, s.cell a = s'.cell a

/-- In all states that agree with `s` on the operands of `i`, the meaning `f` makes one and the same write. -/
def MakesOneWrite (i : Instr) (s : State) (f : State → Result) : Prop :=
  ∃ u : Write, ∀ s', SameOperands i s s' → f s' = .next (u.apply s')

section Operands

variable {i : Instr} {s : State}

theorem stop_makesOneWrite {c : StopCause} (hc : c ≠ .none) : MakesOneWrite i s (stop c) :=
  ⟨.stop c hc, fun _ _ => rfl⟩

theorem writeReg_makesOneWrite (r : Nat) (v : Byte) : MakesOneWrite i s (writeReg r v) := by
  by_cases h : r < Config.nreg
  · exact ⟨.register r v h, fun s' _ => writeReg_of_lt h v s'⟩
  · exact ⟨.stop .dataBounds (by decide), fun s' _ => writeReg_of_ge h v s'⟩

theorem writeCell_makesOneWrite (a : Nat) (v : Byte) : MakesOneWrite i s (writeCell a v) := by
  by_cases h : a < Config.memSize
  · exact ⟨.cell a v, fun s' _ => writeCell_of_lt h v s'⟩
  · exact ⟨.stop .dataBounds (by decide), fun s' _ => writeCell_of_ge h v s'⟩

theorem withReg_makesOneWrite {r : Nat} {k : State → Byte → Result} (hr : r ∈ i.registers)
    (hk : ∀ v, MakesOneWrite i s fun s' => k s' v) :
    MakesOneWrite i s fun s' => withReg r s' (k s') := by
  by_cases h : r < Config.nreg
  · obtain ⟨u, hu⟩ := hk (s.reg r)
    refine ⟨u, fun s' hs => ?_⟩
    rw [hs.reg r hr] at hu
    exact (withReg_of_lt h s' (k s')).trans (hu s' hs)
  · exact ⟨.stop .dataBounds (by decide), fun s' _ => withReg_of_ge h s' _⟩

theorem withCell_makesOneWrite {a : Nat} {k : State → Byte → Result} (ha : a ∈ i.addresses)
    (hk : ∀ v, MakesOneWrite i s fun s' => k s' v) :
    MakesOneWrite i s fun s' => withCell a s' (k s') := by
  by_cases h : a < Config.memSize
  · obtain ⟨u, hu⟩ := hk (s.cell a)
    refine ⟨u, fun s' hs => ?_⟩
    rw [hs.cell a ha] at hu
    exact (withCell_of_lt h s' (k s')).trans (hu s' hs)
  · exact ⟨.stop .dataBounds (by decide), fun s' _ => withCell_of_ge h s' _⟩

theorem binaryOp_makesOneWrite (f : Byte → Byte → Byte) (r : Nat) {p q : Nat} (hp : p ∈ i.registers)
    (hq : q ∈ i.registers) : MakesOneWrite i s (binaryOp f r p q) :=
  withReg_makesOneWrite hp fun _ => withReg_makesOneWrite hq fun _ => writeReg_makesOneWrite _ _

end Operands

theorem execBrz_makesOneWrite (r : Nat) (target : Byte) (s : State) :
    MakesOneWrite (.brz r target) s (execBrz r target) := by
  refine withReg_makesOneWrite (by simp [Instr.registers]) fun v => ?_
  cases isZero v with
  | true => exact ⟨.pc (branchTarget target), fun _ _ => rfl⟩
  | false => exact ⟨.nothing, fun _ _ => rfl⟩

theorem exec_makesOneWrite (i : Instr) (s : State) : MakesOneWrite i s (exec i) := by
  cases i with
  | load r a => exact withCell_makesOneWrite (by simp [Instr.addresses]) fun _ => writeReg_makesOneWrite _ _
  | loadi r v => exact writeReg_makesOneWrite _ _
  | store r a => exact withReg_makesOneWrite (by simp [Instr.registers]) fun _ => writeCell_makesOneWrite _ _
  | move x p q => exact withReg_makesOneWrite (by simp [Instr.registers]) fun _ => writeReg_makesOneWrite _ _
  | add r p q => exact binaryOp_makesOneWrite _ _ (by simp [Instr.registers]) (by simp [Instr.registers])
  | add6 r p q => exact binaryOp_makesOneWrite _ _ (by simp [Instr.registers]) (by simp [Instr.registers])
  | or r p q => exact binaryOp_makesOneWrite _ _ (by simp [Instr.registers]) (by simp [Instr.registers])
  | and r p q => exact binaryOp_makesOneWrite _ _ (by simp [Instr.registers]) (by simp [Instr.registers])
  | xor r p q => exact binaryOp_makesOneWrite _ _ (by simp [Instr.registers]) (by simp [Instr.registers])
  | rotate r n x => exact withReg_makesOneWrite (by simp [Instr.registers]) fun _ => writeReg_makesOneWrite _ _
  | brz r target => exact execBrz_makesOneWrite r target s
  | halt x => exact stop_makesOneWrite (by decide)
  | unknown0 x => exact stop_makesOneWrite (by decide)
  | unknownD x => exact stop_makesOneWrite (by decide)
  | unknownE x => exact stop_makesOneWrite (by decide)
  | unknownF x => exact stop_makesOneWrite (by decide)

end Sys2Proof.Machine
end

section
/-! SUPPORT. What the block shows of a state at the end of a run. -/

namespace Sys2Proof.Machine

theorem finalPc_of_running {s : State} (h : s.halted = false) : s.finalPc = none := by
  simp only [State.finalPc, h, Bool.false_eq_true, if_false]

theorem regs_toList_getElem? (s : State) {q : Nat} (h : q < Config.nreg) :
    s.regs.toList[q]? = some (s.reg q) := by
  have hget := regGet_eq s q
  rw [if_pos h] at hget
  rw [← hget, State.regGet, Vector.getElem?_toList]

theorem cells_getElem? (s : State) {a : Nat} (h : a < Config.memSize) :
    ((List.range Config.memSize).map s.cell)[a]? = some (s.cell a) := by
  rw [List.getElem?_map, List.getElem?_range h, Option.map_some]

end Sys2Proof.Machine
end

section
/-! SUPPORT. The proofs of the statements about the state (10_state.md). -/

namespace Sys2Proof.Machine

/-- Settles O16: no instruction, failed fetch or halted state breaks one of the three parts. -/
theorem stepKeepsTheInvariant : Obligations.StepKeepsTheInvariant :=
  fun _ _ => step_keeps_inv

/-- Settles O17: the empty memory is canonical, and `pc`, `halted` and `stop_cause` are at their reset values. -/
theorem resetMeetsTheInvariant : Obligations.ResetMeetsTheInvariant where
  mem_wf := Memory.wf_nil
  pc_range := Nat.zero_le _
  halted_iff := by simp [State.reset]

/-- Settles O10, by what a step can do and, for a decoded word, what its opcode does to the status. -/
theorem stepSetsHaltedInExactlyThreeCases : Obligations.StepSetsHaltedInExactlyThreeCases := by
  intro s t h
  rcases step_cases s with ⟨hh, hstep⟩ | ⟨hh, hp, hstep⟩ | ⟨hh, hp, hstep⟩ <;> rw [hstep] at h
  · cases h
    simp [hh]
  · cases h
    simp [hh, hp]
  · have hop : (s.cell s.pc.toNat).toNat / 16 =
        (decodeWord (s.cell s.pc.toNat ++ s.cell (s.pc.toNat + 1))).opcode.toNat := by
      rw [decodeWord_opcode, opField_bytes]
    refine ⟨by simp [hh], fun _ => ⟨fun hge => absurd hp (by omega), fun _ => ?_⟩⟩
    rw [hop]
    obtain ⟨hC, rfl⟩ | ⟨hunknown, rfl⟩ | ⟨hother, hsame⟩ := exec_status_cases (decodeWord_wellFormed _) h
    · simp [hC]
    · refine ⟨fun hC => ?_, fun _ => ⟨rfl, rfl⟩, fun hother => ?_⟩
      · simp [hC] at hunknown
      · simp only [List.mem_cons, List.not_mem_nil, or_false] at hunknown hother
        omega
    · refine ⟨fun hC => ?_, fun hunknown => ?_, fun _ => ⟨hsame.1.trans hh, hsame.2⟩⟩
      · simp [hC] at hother
      · simp only [List.mem_cons, List.not_mem_nil, or_false] at hunknown hother
        omega

/-- Settles O13: only BRZ writes `pc` after the advance, and only where its register is 0. -/
theorem pcAfterEveryStep : Obligations.PcAfterEveryStep := by
  intro s t hrun h
  rcases step_cases s with ⟨hh, _⟩ | ⟨_, hp, hstep⟩ | ⟨_, hp, hstep⟩
  · simp [hrun] at hh
  · rw [hstep] at h
    cases h
    exact ⟨fun _ => rfl, fun hlt => absurd hlt hp⟩
  · rw [hstep] at h
    refine ⟨fun hge => absurd hp (by omega), fun _ => ?_⟩
    by_cases hB : (s.cell s.pc.toNat).toNat / 16 = 0xB
    · rw [decodeWord_of_opField_brz (by rw [opField_bytes, hB]), exec_brz_of_lt (rField _).isLt, rField_bytes,
        addressField_bytes, advance_reg] at h
      cases h
      by_cases hz : s.reg ((s.cell s.pc.toNat).toNat % 16) = 0x00#8
      · rw [if_pos hz, if_pos ⟨hB, hz⟩, setPc_pc, branchTarget_toNat]
      · rw [if_neg hz, if_neg fun hboth => hz hboth.2, advance_pc_toNat s hp]
    · rw [if_neg fun hboth => hB hboth.1, ← advance_pc_toNat s hp]
      refine congrArg BitVec.toNat (exec_pc_of_opcode_ne_brz ?_ h)
      rwa [decodeWord_opcode, opField_bytes]

/-- Settles O23: the first access outside the bounds stops an ill-formed instruction, and `DATA_BOUNDS` is raised by
no other. -/
theorem outOfRangeOperandStops : Obligations.OutOfRangeOperandStops := by
  refine ⟨fun i s hi => ⟨_, exec_of_not_wellFormed hi s, rfl, rfl, fun _ => rfl, fun _ => rfl, rfl⟩,
    fun i s hi => ?_⟩
  obtain ⟨t, ht⟩ := exec_answers_next i s
  refine ⟨t, ht, fun hcause => ?_⟩
  obtain ⟨_, rfl⟩ | ⟨_, rfl⟩ | ⟨_, hsame⟩ := exec_status_cases hi ht
  · simp at hcause
  · simp at hcause
  · exact hsame.2.symm.trans hcause

/-- Settles O44: changing the status changes no operand, so the write is the same one. -/
theorem noInstructionReadsTheStatus : Obligations.NoInstructionReadsTheStatus := by
  intro i s
  obtain ⟨u, hu⟩ := exec_makesOneWrite i s
  have hexec (h : Bool) (c : StopCause) := hu { s with halted := h, stopCause := c } ⟨fun _ _ => rfl, fun _ _ => rfl⟩
  cases u with
  | nothing => exact .inl ⟨s, hexec⟩
  | register r v hr => exact .inl ⟨{ s with regs := s.regs.set r v hr }, hexec⟩
  | cell a v => exact .inl ⟨{ s with mem := s.mem.write a v }, hexec⟩
  | pc p => exact .inl ⟨s.setPc p, hexec⟩
  | stop k hk => exact .inr ⟨s, k, hk, hexec⟩

/-- Settles O45: on two states that agree on the operands the write is the same one, and it keeps what they agree on. -/
theorem resultsDependOnlyOnNamedOperands : Obligations.ResultsDependOnlyOnNamedOperands := by
  intro i s s' t t' hreg hcell hpc ht ht'
  obtain ⟨u, hu⟩ := exec_makesOneWrite i s
  rw [hu s ⟨fun _ _ => rfl, fun _ _ => rfl⟩] at ht
  rw [hu s' ⟨hreg, hcell⟩] at ht'
  cases ht
  cases ht'
  exact ⟨fun q hq => u.apply_reg_congr (hreg q hq), fun a ha => u.apply_cell_congr (hcell a ha),
    u.apply_pc_congr hpc, u.apply_status_congr⟩

/-- Settles O46, element by element of the two lists; a running machine has no final program counter to show. -/
theorem outputsShowTheFinalState : Obligations.OutputsShowTheFinalState := by
  refine ⟨fun s p hp => ?_, fun s hrun => ?_⟩
  · refine ⟨_, by rw [observe, hp, Option.map_some], rfl, Vector.length_toList, fun q hq => ?_, ?_, fun a ha => ?_,
      rfl, rfl⟩
    · exact regs_toList_getElem? s hq
    · rw [List.length_map, List.length_range]
    · exact cells_getElem? s ha
  · rw [observe, finalPc_of_running hrun, Option.map_none]

end Sys2Proof.Machine
end

section
/-! SUPPORT. STORE and LOAD: the words that decode to a STORE, what the two do within the bounds, and that no other
instruction writes a cell. -/

namespace Sys2Proof

theorem decodeWord_of_opField_store {w : Word} (h : (opField w).toNat = 0x3) :
    decodeWord w = .store (rField w).toNat (addressField w).toNat := by
  simp only [decodeWord, h]

/-- Only a word with opcode 3 is a STORE, and its fields are the operands (30_encoding.md R81, R88). -/
theorem fields_of_decodeWord_eq_store {w : Word} {r a : Nat} (h : decodeWord w = .store r a) :
    (opField w).toNat = 0x3 ∧ r = (rField w).toNat ∧ a = (addressField w).toNat := by
  have hop : (opField w).toNat = 0x3 := by
    rw [← decodeWord_opcode, h]
    rfl
  rw [decodeWord_of_opField_store hop] at h
  cases h
  exact ⟨hop, rfl, rfl⟩

theorem decodeWord_store_bytes (r : Nibble) (a : Byte) :
    decodeWord ((0x3#4 ++ r : Byte) ++ a) = .store r.toNat a.toNat := by
  have hr : rField ((0x3#4 ++ r : Byte) ++ a) = r := by
    obtain ⟨b, c, rfl⟩ := byte_eq_nibbles a
    rw [append_byte, rField_nibbles]
  rw [decodeWord_of_opField_store (by rw [Laws.TopNibble.opField_nibble_byte]; rfl), hr, addressField_bytes]

namespace Machine

theorem exec_store_of_lt {r a : Nat} (hr : r < Config.nreg) (ha : a < Config.memSize) (s : State) :
    exec (.store r a) s = .next { s with mem := s.mem.write a (s.reg r) } := by
  show withReg r s _ = _
  rw [withReg_of_lt hr, writeCell_of_lt ha]

theorem exec_load_of_lt {r a : Nat} (hr : r < Config.nreg) (ha : a < Config.memSize) (s : State) :
    exec (.load r a) s = .next { s with regs := s.regs.set r (s.cell a) hr } := by
  show withCell a s _ = _
  rw [withCell_of_lt ha, writeReg_of_lt hr]

theorem exec_store_cellWritten {r a : Nat} (hr : r < Config.nreg) (ha : a < Config.memSize) (s : State) :
    ∃ t, exec (.store r a) s = .next t ∧ CellWritten s t a (s.reg r) :=
  ⟨_, exec_store_of_lt hr ha s, Memory.read_write_same s.mem a _, fun _ hb => Memory.read_write_other s.mem _ hb,
    fun _ => rfl, rfl, rfl, rfl⟩

/-- Read after write, said of the frame of a STORE (20_memory.md R69). -/
theorem CellWritten.cell_eq {s t : State} {a : Nat} {v : Byte} (h : CellWritten s t a v) (b : Nat) :
    t.cell b = if b = a then v else s.cell b := by
  obtain ⟨hsame, hother, _⟩ := h
  by_cases hb : b = a
  · rw [if_pos hb, hb, hsame]
  · rw [if_neg hb, hother b hb]

theorem execAll_cons_of_next {i : Instr} {s t : State} (h : exec i s = .next t) (is : List Instr) :
    execAll (i :: is) s = execAll is t := by
  simp only [execAll, h]

/-- An instruction that changes a cell is a STORE of that cell (20_memory.md R59). -/
theorem exec_eq_store_of_cell_ne {i : Instr} {s t : State} {a : Nat} (h : exec i s = .next t)
    (hne : t.cell a ≠ s.cell a) : ∃ r, i = .store r a ∧ t.cell a = s.reg r := by
  have heffect := exec_effect i s
  rw [h] at heffect
  cases heffect with
  | @cellWritten r b hr hb hstore =>
    by_cases hab : a = b
    · subst hab
      exact ⟨r, hstore, Memory.read_write_same s.mem a _⟩
    · exact absurd (Memory.read_write_other s.mem _ hab) hne
  | registerWritten v hr hd => exact absurd rfl hne
  | branched hr hbrz hz => exact absurd rfl hne
  | notBranched hr hbrz hz => exact absurd rfl hne
  | halt hhalt => exact absurd rfl hne
  | unknownOpcode hop => exact absurd rfl hne
  | dataBounds hbad => exact absurd rfl hne

/-! ## The step of a running state that can fetch -/

theorem advance_eq (s : State) : s.advance = { s with pc := BitVec.ofNat 9 (s.pc.toNat + 2) } := by
  rw [BitVec.ofNat_add, BitVec.ofNat_toNat, BitVec.setWidth_eq]
  rfl

theorem step_of_running {s : State} (hrun : s.halted = false) (hp : s.pc.toNat + 1 < Config.memSize) :
    step s = exec (decodeWord (s.cell s.pc.toNat ++ s.cell (s.pc.toNat + 1)))
      { s with pc := BitVec.ofNat 9 (s.pc.toNat + 2) } := by
  rcases step_cases s with ⟨hh, _⟩ | ⟨_, hbad, _⟩ | ⟨_, _, hstep⟩
  · simp [hrun] at hh
  · exact absurd hp hbad
  · rw [hstep, advance_eq]

end Machine

end Sys2Proof
end

section
/-! SUPPORT. The proofs of the statements about storage (20_memory.md). -/

namespace Sys2Proof.Machine

/-- Settles O11: a halted state and a failed fetch keep every cell, and an instruction that changes one is a STORE, whose
fields are read back from its word. -/
theorem storageChangesOnlyByStore : Obligations.StorageChangesOnlyByStore := by
  intro s t a h hne
  rcases step_cases s with ⟨_, hstep⟩ | ⟨_, _, hstep⟩ | ⟨hrun, _, hstep⟩ <;> rw [hstep] at h
  · cases h
    exact absurd rfl hne
  · cases h
    exact absurd rfl hne
  · obtain ⟨r, hstore, hval⟩ := exec_eq_store_of_cell_ne h hne
    obtain ⟨hop, hr, ha⟩ := fields_of_decodeWord_eq_store hstore
    rw [opField_bytes] at hop
    rw [rField_bytes] at hr
    rw [addressField_bytes] at ha
    exact ⟨hrun, hop, ha, hr ▸ hval⟩

/-- Settles O41, by read after write of storage, through the LOAD's write of its register. -/
theorem loadReadsTheLastStore : Obligations.LoadReadsTheLastStore := by
  intro st r q a b hr hq ha hb
  obtain ⟨t, hstore, hwrite⟩ := exec_store_cellWritten hr ha st
  refine ⟨_, (execAll_cons_of_next hstore _).trans (execAll_cons_of_next (exec_load_of_lt hq hb t) []), ?_⟩
  rw [reg_set, if_pos rfl, hwrite.cell_eq]

/-- Settles O42: the STORE is decoded from the bytes before its write, and the next step fetches after it, each of its two
cells read through the write. -/
theorem storeIsSeenByTheNextFetch : Obligations.StoreIsSeenByTheNextFetch := by
  intro s r a hrun hp hfirst hsecond
  have hstep := step_of_running hrun (show s.pc.toNat + 1 < 256 by omega)
  obtain ⟨t, hstore, hwrite⟩ := exec_store_cellWritten r.isLt a.isLt { s with pc := BitVec.ofNat 9 (s.pc.toNat + 2) }
  rw [hfirst, hsecond, decodeWord_store_bytes, hstore] at hstep
  refine ⟨t, hstep, hwrite, ?_⟩
  have ⟨_, _, _, hpc, hhalted, _⟩ := hwrite
  have hnext : t.pc.toNat = s.pc.toNat + 2 := by
    rw [hpc, BitVec.toNat_ofNat]
    omega
  rw [step_of_running (hhalted.trans hrun) (by rw [hnext]; exact hp), hwrite.cell_eq, hwrite.cell_eq, hnext]
  rfl

end Sys2Proof.Machine
end

section
/-! SUPPORT. What the instructions with ignored fields do: the right-hand sides do not mention these fields
(30_encoding.md R89). -/

namespace Sys2Proof.Machine

theorem exec_move (x : Nibble) (s t : Nat) (st : State) :
    exec (.move x s t) st = withReg s st fun v => writeReg t v st := rfl

theorem exec_rotate (r : Nat) (n x : Nibble) (st : State) :
    exec (.rotate r n x) st = withReg r st fun v => writeReg r (aluRotr v n) st := rfl

theorem exec_halt (x : BitVec 12) (st : State) : exec (.halt x) st = stop .halt st := rfl

/-- The opcode settles the effect of the rows that are no instruction (43_control.md R172). -/
theorem exec_of_opcode_unknown {i : Instr} (hi : i.opcode ∈ [0x0#4, 0xD#4, 0xE#4, 0xF#4]) (st : State) :
    exec i st = stop .unknownOpcode st := by
  cases i with
  | unknown0 x => rfl
  | unknownD x => rfl
  | unknownE x => rfl
  | unknownF x => rfl
  | _ => simp [Instr.opcode] at hi

/-- Two rows that are no instruction have one effect, whatever the bits below their opcodes. -/
theorem exec_congr_of_opcode_unknown {i j : Instr} (hi : i.opcode ∈ [0x0#4, 0xD#4, 0xE#4, 0xF#4])
    (hj : j.opcode = i.opcode) (st : State) : exec i st = exec j st := by
  rw [exec_of_opcode_unknown hi, exec_of_opcode_unknown (hj ▸ hi)]

end Sys2Proof.Machine
end

section
/-! SUPPORT. The proofs of the statements about the encoding (30_encoding.md). -/

namespace Sys2Proof.Machine

/-- Settles O5: the decoded row's opcode is the word's opcode field, and what each of the instructions does is said without
its ignored field. -/
theorem ignoredFieldsHaveNoEffect : Obligations.IgnoredFieldsHaveNoEffect := by
  refine ⟨fun v w h => ?_, fun x y s t st => ?_, fun r n x y st => ?_, fun x y st => ⟨?_, ?_, ?_, ?_, ?_⟩⟩
  · rw [decodeWord_opcode, decodeWord_opcode, h]
  · rw [exec_move, exec_move]
  · rw [exec_rotate, exec_rotate]
  · rw [exec_halt, exec_halt]
  all_goals exact exec_congr_of_opcode_unknown (by simp [Instr.opcode]) rfl st

end Sys2Proof.Machine
end

section
/-! SUPPORT. The stops a step can make and the program counter each reports, the step that cannot fetch, runs from a halted
state, and the fetched word as a number. -/

namespace Sys2Proof.Machine

/-- `raise Stop(cause)` is the whole effect of a stop (00_scope.md R18). -/
theorem raiseStop_stoppedBy (s : State) (c : StopCause) : StoppedBy s (s.raiseStop c) c :=
  ⟨rfl, rfl, fun _ => rfl, fun _ => rfl, rfl⟩

theorem step_of_fetch_outside {s : State} (hrun : s.halted = false) (hp : Config.memSize ≤ s.pc.toNat + 1) :
    step s = .next (s.raiseStop .fetchBounds) := by
  rcases step_cases s with ⟨hh, _⟩ | ⟨_, _, hstep⟩ | ⟨_, hlt, _⟩
  · simp [hrun] at hh
  · exact hstep
  · exact absurd hlt (Nat.not_lt.2 hp)

/-- A step of a running machine that stops it is a failed fetch, or HALT or an unknown opcode after the advance of `pc`
(10_state.md R36). -/
theorem step_stop_cases {s t : State} (hrun : s.halted = false) (h : step s = .next t) (hstop : t.halted = true) :
    t = s.raiseStop .fetchBounds ∨ t = s.advance.raiseStop .halt ∨ t = s.advance.raiseStop .unknownOpcode := by
  rcases step_cases s with ⟨hh, _⟩ | ⟨_, _, hstep⟩ | ⟨_, _, hstep⟩
  · simp [hrun] at hh
  · rw [hstep] at h
    cases h
    exact .inl rfl
  · rw [hstep] at h
    obtain ⟨_, ht⟩ | ⟨_, ht⟩ | ⟨_, hsame, _⟩ := exec_status_cases (decodeWord_wellFormed _) h
    · exact .inr (.inl ht)
    · exact .inr (.inr ht)
    · simp [hsame, hrun] at hstop

theorem run_of_halted {s : State} (h : s.halted = true) (k : Nat) : run k s = .next s := by
  induction k with
  | zero => exact run_zero s
  | succ k ih => rw [run_succ_of_next (step_of_halted h), ih]

/-! ## The final program counter (40_cycle.md R109) -/

theorem finalPc_of_fetchBounds {s : State} (hh : s.halted = true) (hc : s.stopCause = .fetchBounds) :
    s.finalPc = some s.pc := by
  simp only [State.finalPc, hh, hc, if_true]

/-- The causes an instruction stops by, each after the advance of `pc`. -/
theorem finalPc_of_stopped_after_advance {s : State} (hh : s.halted = true)
    (hc : s.stopCause ∈ [.halt, .unknownOpcode, .dataBounds]) : s.finalPc = some (s.pc - 2#9) := by
  simp only [List.mem_cons, List.not_mem_nil, or_false] at hc
  obtain hc | hc | hc := hc <;> simp only [State.finalPc, hh, hc, if_true]

/-- Subtracting 2 undoes the advance of `pc`, whatever `pc` was. -/
theorem finalPc_advance_raiseStop (s : State) {c : StopCause} (hc : c ∈ [.halt, .unknownOpcode, .dataBounds]) :
    (s.advance.raiseStop c).finalPc = some s.pc := by
  rw [finalPc_of_stopped_after_advance rfl hc, raiseStop_pc, advance_pc, BitVec.add_sub_cancel]

/-! ## The fetched word (40_cycle.md R103) -/

/-- The byte at the lower address is the high byte of the word. -/
theorem append_eq_ofNat (first second : Byte) :
    first ++ second = BitVec.ofNat 16 (first.toNat * 256 + second.toNat) := by
  have hword : (first ++ second).toNat = first.toNat * 256 + second.toNat := by
    rw [BitVec.toNat_append, ← Nat.shiftLeft_add_eq_or_of_lt second.isLt, Nat.shiftLeft_eq]
  rw [← hword, BitVec.ofNat_toNat, BitVec.setWidth_eq]

end Sys2Proof.Machine
end

section
/-! SUPPORT. The proofs of the statements about the cycle (40_cycle.md). -/

namespace Sys2Proof.Machine

/-- Settles O8, by induction on the number of steps. -/
theorem haltedStateIsFinal : Obligations.HaltedStateIsFinal :=
  fun _ k h => run_of_halted h k

/-- Settles O15: a failed fetch leaves `pc` at its address, and every other stop of a step leaves it 2 beyond. -/
theorem finalPcIsTheStoppingInstruction : Obligations.FinalPcIsTheStoppingInstruction := by
  refine ⟨fun s t hrun h hstop => ?_, fun _ => finalPc_of_stopped_after_advance, fun _ => finalPc_of_fetchBounds,
    fun _ => finalPc_of_running⟩
  obtain rfl | rfl | rfl := step_stop_cases hrun h hstop
  · exact finalPc_of_fetchBounds rfl rfl
  · exact finalPc_advance_raiseStop s (by simp)
  · exact finalPc_advance_raiseStop s (by simp)

/-- Settles O6: the word and the byte decoder read the same two cells, and `pc` is at most 254 at a fetch. -/
theorem stepRunsTheDecodedInstruction : Obligations.StepRunsTheDecodedInstruction := by
  intro s hrun hp
  have hstep := step_of_running hrun hp
  have hpc := advance_pc_toNat s hp
  rw [advance_eq] at hpc
  refine ⟨?_, hpc, fun i rest left hdecode => ?_⟩
  · rw [hstep, append_eq_ofNat]
  · cases hdecode
    exact ⟨decodeWord_wellFormed _, rfl, hstep⟩

/-- Settles O7: the failed fetch is one stop, on the state as it was. -/
theorem fetchOutsideStorageStops : Obligations.FetchOutsideStorageStops :=
  fun s hrun hp => ⟨_, step_of_fetch_outside hrun hp, raiseStop_stoppedBy s _⟩

end Sys2Proof.Machine
end

section
/-! SUPPORT. What the statements about single instructions share: a word executes what it decodes to, the write of a
register is the whole effect of a destination, and an address outside storage stops the instruction. -/

namespace Sys2Proof.Machine

/-- The execute part of a step depends on the fetched word only through its decoding (40_cycle.md R105, R106). -/
theorem executes_of_decodeWord_eq {w : Word} {i : Instr} (h : decodeWord w = i) : Executes w i := by
  intro st hrun hp hword
  rw [step_of_running hrun hp, hword, h]

/-- Writing a destination register that exists changes that register only (10_state.md R26). -/
theorem writeReg_registerWritten {r : Nat} (hr : r < Config.nreg) (v : Byte) (s : State) :
    ∃ u, writeReg r v s = .next u ∧ RegisterWritten s u r v := by
  refine ⟨_, writeReg_of_lt hr v s, ?_, fun q hq => ?_, fun _ => rfl, rfl, rfl, rfl⟩
  · rw [reg_set, if_pos rfl]
  · rw [reg_set, if_neg hq]

/-- An instruction with an address outside storage stops, whatever its registers (20_memory.md R55, R56). -/
theorem exec_stoppedBy_of_address_ge {i : Instr} {a : Nat} (hmem : a ∈ i.addresses) (ha : Config.memSize ≤ a)
    (s : State) : ∃ u, exec i s = .next u ∧ StoppedBy s u .dataBounds := by
  have hbad : i.wellFormed = false :=
    Bool.eq_false_iff.2 (Instr.not_wellFormed_of_address hmem (Nat.not_lt.2 ha))
  exact ⟨_, exec_of_not_wellFormed hbad s, raiseStop_stoppedBy s _⟩

theorem exec_load (r a : Nat) (s : State) :
    exec (.load r a) s = withCell a s fun v => writeReg r v s := rfl

theorem exec_loadi (r : Nat) (v : Byte) (s : State) : exec (.loadi r v) s = writeReg r v s := rfl

/-- A fetch after a write of one cell reads the written value there and the old one in every other cell
(20_memory.md R69, 40_cycle.md R103). -/
theorem CellWritten.wordAt_eq {s t : State} {a : Nat} {v : Byte} (h : CellWritten s t a v) {p : Nat}
    (hp : p + 1 < Config.memSize) :
    t.wordAt p = some ((if p = a then v else s.cell p) ++ (if p + 1 = a then v else s.cell (p + 1))) := by
  rw [Machine.wordAt_eq, if_pos hp, h.cell_eq, h.cell_eq]

end Sys2Proof.Machine
end

section
/-! SUPPORT. The proofs of the statements about data movement (41_data_movement.md). -/

namespace Sys2Proof.Machine

/-- Settles O24: a cell within storage is read and written to the register, and one outside it makes the LOAD ill-formed. -/
theorem loadCopiesCellIntoRegister : Obligations.LoadCopiesCellIntoRegister := by
  refine ⟨fun r s t => executes_of_decodeWord_eq (decodeWord_nibbles 0x1#4 r s t), fun st r a hr ha => ?_,
    fun st r a ha => exec_stoppedBy_of_address_ge (by simp [Instr.addresses]) ha st⟩
  rw [exec_load, withCell_of_lt ha]
  exact writeReg_registerWritten hr _ st

/-- Settles O25: LOADI is the write of a register and nothing else. -/
theorem loadiWritesTheLiteral : Obligations.LoadiWritesTheLiteral := by
  refine ⟨fun r s t => executes_of_decodeWord_eq (decodeWord_nibbles 0x2#4 r s t), fun st r v hr => ?_⟩
  rw [exec_loadi]
  exact writeReg_registerWritten hr v st

/-- Settles O26: the frame of the STORE gives every later fetch, and an address outside storage makes it ill-formed. -/
theorem storeCopiesRegisterIntoCell : Obligations.StoreCopiesRegisterIntoCell := by
  refine ⟨fun r s t => executes_of_decodeWord_eq (decodeWord_nibbles 0x3#4 r s t), fun st r a hr ha => ?_,
    fun st r a ha => exec_stoppedBy_of_address_ge (by simp [Instr.addresses]) ha st⟩
  obtain ⟨u, hexec, hwrite⟩ := exec_store_cellWritten hr ha st
  exact ⟨u, hexec, hwrite, fun p hp => hwrite.wordAt_eq hp⟩

/-- Settles O27: the source is read, then written to the destination; the right-hand side of `exec_move` has no `r`
field. -/
theorem moveCopiesRegister : Obligations.MoveCopiesRegister := by
  refine ⟨fun r s t => executes_of_decodeWord_eq (decodeWord_nibbles 0x4#4 r s t), fun st x s t hs ht => ?_⟩
  rw [exec_move, withReg_of_lt hs]
  exact writeReg_registerWritten ht _ st

end Sys2Proof.Machine
end

section
/-! SUPPORT. The ALU bit by bit (42_alu.md R140 to R146), and what the instructions with three register fields and ROTATE
do within the bounds. -/

namespace Sys2Proof.Machine

/-! ## The functions of the ALU -/

theorem aluAdd_toNat (a b : Byte) : (aluAdd a b).toNat = (a.toNat + b.toNat) % 256 := by
  rw [aluAdd, BitVec.toNat_ofNat, Nat.mod_mod]

theorem aluOr_getLsbD (a b : Byte) (i : Nat) : (aluOr a b).getLsbD i = (a.getLsbD i || b.getLsbD i) :=
  BitVec.getLsbD_or

theorem aluAnd_getLsbD (a b : Byte) (i : Nat) : (aluAnd a b).getLsbD i = (a.getLsbD i && b.getLsbD i) :=
  BitVec.getLsbD_and

theorem aluXor_getLsbD (a b : Byte) (i : Nat) : (aluXor a b).getLsbD i = (a.getLsbD i ^^ b.getLsbD i) :=
  BitVec.getLsbD_xor

theorem rotateAmount_lt (n : Nibble) : rotateAmount n < 8 := Nat.mod_lt _ (by decide)

/-- The two shifted copies of a rotate, each reaching the bits the other does not (R145). -/
theorem aluRotr_getLsbD_eq_or (v : Byte) (n : Nibble) {i : Nat} (hi : i < 8) :
    (aluRotr v n).getLsbD i = (v.getLsbD (rotateAmount n + i) ||
      (decide (8 - rotateAmount n ≤ i) && v.getLsbD (i - (8 - rotateAmount n)))) := by
  rw [aluRotr, BitVec.getLsbD_ofNat, show (256 : Nat) = 2 ^ 8 from rfl, Nat.testBit_mod_two_pow, Nat.testBit_or,
    Nat.testBit_shiftRight, Nat.testBit_shiftLeft]
  simp only [hi, decide_true, Bool.true_and, BitVec.testBit_toNat, ge_iff_le]

/-- Bit `i` of a rotate is the bit `k` places higher in the circle (R145): the copy shifted right gives it below the
place where `i + k` reaches 8, and the copy shifted left from there on. -/
theorem aluRotr_getLsbD (v : Byte) (n : Nibble) {i : Nat} (hi : i < 8) :
    (aluRotr v n).getLsbD i = v.getLsbD ((i + rotateAmount n) % 8) := by
  have hk := rotateAmount_lt n
  rw [aluRotr_getLsbD_eq_or v n hi]
  generalize rotateAmount n = k at hk ⊢
  by_cases hwrap : i + k < 8
  · have hleft : ¬ 8 - k ≤ i := by omega
    rw [decide_eq_false hleft, Bool.false_and, Bool.or_false, Nat.mod_eq_of_lt hwrap, Nat.add_comm]
  · have hright : v.getLsbD (k + i) = false := BitVec.getLsbD_of_ge _ _ (by omega)
    have hleft : 8 - k ≤ i := by omega
    have hbit : i - (8 - k) = (i + k) % 8 := by omega
    rw [hright, decide_eq_true hleft, Bool.false_or, Bool.true_and, hbit]

/-! ## The instructions -/

theorem exec_add (r s t : Nat) (st : State) : exec (.add r s t) st = binaryOp aluAdd r s t st := rfl

theorem exec_add6 (r s t : Nat) (st : State) : exec (.add6 r s t) st = binaryOp aluAdd r s t st := rfl

theorem exec_or (r s t : Nat) (st : State) : exec (.or r s t) st = binaryOp aluOr r s t st := rfl

theorem exec_and (r s t : Nat) (st : State) : exec (.and r s t) st = binaryOp aluAnd r s t st := rfl

theorem exec_xor (r s t : Nat) (st : State) : exec (.xor r s t) st = binaryOp aluXor r s t st := rfl

/-- The shape of ADD, ADD6, OR, AND and XOR: the result on the two old values is written to `r`, which may be a source
itself (00_scope.md R19). -/
theorem binaryOp_registerWritten (f : Byte → Byte → Byte) {r s t : Nat} (hr : r < Config.nreg)
    (hs : s < Config.nreg) (ht : t < Config.nreg) (st : State) :
    ∃ u, binaryOp f r s t st = .next u ∧ RegisterWritten st u r (f (st.reg s) (st.reg t)) := by
  rw [binaryOp_of_lt f hr hs ht, ← writeReg_of_lt hr]
  exact writeReg_registerWritten hr _ st

theorem exec_rotate_registerWritten {r : Nat} (hr : r < Config.nreg) (n x : Nibble) (st : State) :
    ∃ u, exec (.rotate r n x) st = .next u ∧ RegisterWritten st u r (aluRotr (st.reg r) n) := by
  rw [exec_rotate, withReg_of_lt hr]
  exact writeReg_registerWritten hr _ st

end Sys2Proof.Machine
end

section
/-! SUPPORT. The proofs of the statements about arithmetic and logic (42_alu.md). -/

namespace Sys2Proof.Machine

/-- Settles O28: the sum is below 256 already. -/
theorem aluAddIsAdditionModulo256 : Obligations.AluAddIsAdditionModulo256 := aluAdd_toNat

/-- Settles O29: the bit lemmas of OR, AND and XOR, which need no bound on the bit. -/
theorem aluLogicWorksBitByBit : Obligations.AluLogicWorksBitByBit :=
  fun a b i _ => ⟨aluOr_getLsbD a b i, aluAnd_getLsbD a b i, aluXor_getLsbD a b i⟩

/-- Settles O30: `rotateAmount` is the amount modulo 8. -/
theorem rotateMovesEveryBit : Obligations.RotateMovesEveryBit :=
  fun v n _ hi => aluRotr_getLsbD v n hi

/-- Settles O31: ADD is the shared binary shape, with `aluAdd`. -/
theorem addWritesTheSum : Obligations.AddWritesTheSum := by
  refine ⟨fun r s t => executes_of_decodeWord_eq (decodeWord_nibbles 0x5#4 r s t), fun st r s t hr hs ht => ?_⟩
  rw [exec_add]
  exact binaryOp_registerWritten aluAdd hr hs ht st

/-- Settles O32: ADD6 and ADD are one binary shape, on every state and all operands. -/
theorem addSixEqualsAdd : Obligations.AddSixEqualsAdd := by
  refine ⟨fun r s t => executes_of_decodeWord_eq (decodeWord_nibbles 0x6#4 r s t), fun st r s t hr hs ht => ?_,
    fun st r s t => ?_⟩
  · rw [exec_add6]
    exact binaryOp_registerWritten aluAdd hr hs ht st
  · rw [exec_add6, exec_add]

/-- Settles O33: OR is the shared binary shape, with `aluOr`. -/
theorem orWritesTheDisjunction : Obligations.OrWritesTheDisjunction := by
  refine ⟨fun r s t => executes_of_decodeWord_eq (decodeWord_nibbles 0x7#4 r s t), fun st r s t hr hs ht => ?_⟩
  rw [exec_or]
  exact binaryOp_registerWritten aluOr hr hs ht st

/-- Settles O34: AND is the shared binary shape, with `aluAnd`. -/
theorem andWritesTheConjunction : Obligations.AndWritesTheConjunction := by
  refine ⟨fun r s t => executes_of_decodeWord_eq (decodeWord_nibbles 0x8#4 r s t), fun st r s t hr hs ht => ?_⟩
  rw [exec_and]
  exact binaryOp_registerWritten aluAnd hr hs ht st

/-- Settles O35: XOR is the shared binary shape, with `aluXor`. -/
theorem xorWritesTheDifference : Obligations.XorWritesTheDifference := by
  refine ⟨fun r s t => executes_of_decodeWord_eq (decodeWord_nibbles 0x9#4 r s t), fun st r s t hr hs ht => ?_⟩
  rw [exec_xor]
  exact binaryOp_registerWritten aluXor hr hs ht st

/-- Settles O36: ROTATE writes what `aluRotr` makes of the old value, whose bits `aluRotr_getLsbD` gives. -/
theorem rotateTurnsTheRegisterRight : Obligations.RotateTurnsTheRegisterRight := by
  refine ⟨fun r s t => executes_of_decodeWord_eq (decodeWord_nibbles 0xA#4 r s t), fun st r n x hr => ?_⟩
  obtain ⟨u, hexec, hwrite⟩ := exec_rotate_registerWritten hr n x st
  exact ⟨u, _, hexec, hwrite, fun _ hi => aluRotr_getLsbD _ n hi⟩

end Sys2Proof.Machine
end

section
/-! SUPPORT. The words of the control rows, what a stop of the execute part reports, and the run from a state that a step
leaves as it is. -/

namespace Sys2Proof

theorem decodeWord_brz_byte (r : Nibble) (a : Byte) : decodeWord (0xB#4 ++ r ++ a) = .brz r.toNat a := by
  obtain ⟨b, c, rfl⟩ := byte_eq_nibbles a
  rw [append_byte]
  exact decodeWord_nibbles 0xB#4 r b c

namespace Machine

/-- The rows that read no field: their word is the opcode before twelve bits that the term keeps (30_encoding.md R89). -/
theorem executes_of_decodeWord_nibbles_eq {o : Nibble} {f : BitVec 12 → Instr}
    (h : ∀ a b c : Nibble, decodeWord (o ++ a ++ b ++ c) = f (a ++ b ++ c)) (x : BitVec 12) :
    Executes (o ++ x) (f x) := by
  obtain ⟨a, b, c, rfl⟩ := twelve_eq_nibbles x
  rw [append_twelve]
  exact executes_of_decodeWord_eq (h a b c)

/-- A stop of the execute part changes the status only, and the fetch address is then the final program counter
(40_cycle.md R109, 60_exceptions.md R203). -/
theorem stop_stoppedBy_finalPc {c : StopCause} (hc : c ∈ [.halt, .unknownOpcode, .dataBounds]) (st : State) :
    ∃ u, stop c st = .next u ∧ StoppedBy st u c ∧ u.finalPc = some (st.pc - 2#9) :=
  ⟨_, rfl, raiseStop_stoppedBy st c, finalPc_of_stopped_after_advance rfl hc⟩

/-- A taken branch changes `pc` only (10_state.md R31). -/
theorem setPc_pcWritten (s : State) (p : Pc) : PcWritten s (s.setPc p) p :=
  ⟨rfl, fun _ => rfl, fun _ => rfl, rfl, rfl⟩

/-- A run from a state that a step leaves as it is reaches no other. -/
theorem eq_of_reaches_of_step_eq_self {s t : State} (hself : step s = .next s) (h : Reaches s t) : t = s := by
  refine reaches_induction (P := (· = s)) (fun u v hu hv => ?_) rfl h
  rw [hu, hself] at hv
  cases hv
  rfl

/-- A running machine at a BRZ to its own address on a zero register: the branch undoes the advance of `pc`
(43_control.md R170). -/
theorem step_branch_to_itself {s : State} {r : Nibble} (hrun : s.halted = false)
    (hp : s.pc.toNat + 1 < Config.memSize) (hfirst : s.cell s.pc.toNat = 0xB#4 ++ r)
    (hself : (s.cell (s.pc.toNat + 1)).toNat = s.pc.toNat) (hz : s.reg r.toNat = 0x00#8) :
    step s = .next s := by
  have htarget : branchTarget (s.cell (s.pc.toNat + 1)) = s.pc :=
    BitVec.eq_of_toNat_eq ((branchTarget_toNat _).trans hself)
  rw [step_of_running hrun hp, ← advance_eq, hfirst, decodeWord_brz_byte, exec_brz_of_lt r.isLt, advance_reg,
    if_pos hz, htarget]
  rfl

end Machine

end Sys2Proof
end

section
/-! SUPPORT. The proofs of the statements about control (43_control.md). -/

namespace Sys2Proof.Machine

/-- Settles O22: the run stays in the one state that the branch leaves as it is. -/
theorem branchToItselfNeverStops : Obligations.BranchToItselfNeverStops := by
  intro s r hrun hp hfirst hself hz
  have hstep := step_branch_to_itself hrun hp hfirst hself hz
  refine ⟨hstep, fun t ht => ?_⟩
  rw [eq_of_reaches_of_step_eq_self hstep ht, hrun]

/-- Settles O38, by the two cases of BRZ on a register that exists; the zero-extended target has the value of its byte. -/
theorem brzBranchesExactlyOnZero : Obligations.BrzBranchesExactlyOnZero := by
  refine ⟨fun r s t => executes_of_decodeWord_eq (decodeWord_nibbles 0xB#4 r s t), fun st r a hr hz => ?_,
    fun st r a hr hnz => ?_⟩
  · rw [exec_brz_of_lt hr, if_pos hz]
    exact ⟨_, rfl, branchTarget_toNat a, setPc_pcWritten st _⟩
  · rw [exec_brz_of_lt hr, if_neg hnz]

/-- Settles O39: HALT is one stop, and the state it leaves is halted, so it is final. -/
theorem haltStopsTheMachine : Obligations.HaltStopsTheMachine := by
  refine ⟨executes_of_decodeWord_nibbles_eq (decodeWord_nibbles 0xC#4), fun st x => ?_, fun st u k x h => ?_⟩
  · rw [exec_halt]
    exact stop_stoppedBy_finalPc (by simp) st
  · rw [exec_halt] at h
    cases h
    exact run_of_halted (raiseStop_halted st .halt) k

/-- Settles O40: each of the four opcodes keeps its twelve bits in the term, and all four make one stop. -/
theorem unknownOpcodesStopTheMachine : Obligations.UnknownOpcodesStopTheMachine := by
  refine ⟨fun x => ⟨?_, ?_, ?_, ?_⟩, fun st x i hi => ?_⟩
  · exact executes_of_decodeWord_nibbles_eq (decodeWord_nibbles 0x0#4) x
  · exact executes_of_decodeWord_nibbles_eq (decodeWord_nibbles 0xD#4) x
  · exact executes_of_decodeWord_nibbles_eq (decodeWord_nibbles 0xE#4) x
  · exact executes_of_decodeWord_nibbles_eq (decodeWord_nibbles 0xF#4) x
  · rw [exec_of_opcode_unknown (List.mem_map_of_mem (f := Instr.opcode) hi)]
    exact stop_stoppedBy_finalPc (by simp) st

end Sys2Proof.Machine
end

section
/-! SUPPORT. That a step answers a next state, what an instruction that stops leaves, and the last step of a run that
ends. -/

namespace Sys2Proof.Machine

theorem step_answers_next (s : State) : ∃ t, step s = .next t := by
  rcases step_cases s with ⟨_, hstep⟩ | ⟨_, _, hstep⟩ | ⟨_, _, hstep⟩ <;> rw [hstep]
  · exact ⟨s, rfl⟩
  · exact ⟨s.raiseStop .fetchBounds, rfl⟩
  · exact exec_answers_next _ _

/-- An instruction that stops a running machine does it by one stop, on the state it was given, whether its operands lie
within the bounds or not (60_exceptions.md R203). -/
theorem exec_stoppedBy_of_halted {i : Instr} {s t : State} (hrun : s.halted = false) (h : exec i s = .next t)
    (hstop : t.halted = true) : StoppedBy s t t.stopCause := by
  cases hi : i.wellFormed with
  | false =>
    rw [exec_of_not_wellFormed hi] at h
    cases h
    exact raiseStop_stoppedBy s _
  | true =>
    obtain ⟨_, rfl⟩ | ⟨_, rfl⟩ | ⟨_, hsame, _⟩ := exec_status_cases hi h
    · exact raiseStop_stoppedBy s _
    · exact raiseStop_stoppedBy s _
    · simp [hsame, hrun] at hstop

/-- A step of a running machine that does not end by a failed fetch has fetched (40_cycle.md R102). -/
theorem fetch_inside_of_stopCause_ne {s t : State} (hrun : s.halted = false) (h : step s = .next t)
    (hc : t.stopCause ≠ .fetchBounds) : s.pc.toNat + 1 < Config.memSize := by
  by_contra hp
  rw [step_of_fetch_outside hrun (Nat.not_lt.1 hp)] at h
  cases h
  exact hc rfl

/-- A run that starts running and ends has a last step, which stops a running machine. -/
theorem exists_stopping_step {s t : State} (hrun : s.halted = false) (h : Reaches s t) (hstop : t.halted = true) :
    ∃ u, u.halted = false ∧ step u = .next t := by
  refine reaches_induction (P := fun v => v.halted = true → ∃ u, u.halted = false ∧ step u = .next v)
    (fun u v hu hstep hv => ?_) (fun hs => ?_) h hstop
  · cases huh : u.halted with
    | false => exact ⟨u, huh, hstep⟩
    | true =>
      rw [step_of_halted huh] at hstep
      cases hstep
      exact hu huh
  · simp [hrun] at hs

end Sys2Proof.Machine
end

section
/-! SUPPORT. The proofs of the statements about exceptions (60_exceptions.md). -/

namespace Sys2Proof.Machine

/-- Settles O9: the halted state, the failed fetch and every instruction have a next state. -/
theorem everyStepAnswersANextState : Obligations.EveryStepAnswersANextState := step_answers_next

/-- Settles O14: a stop writes the status only, on the state the fetch left: the one before the advance of `pc` where the
fetch failed, and the one after it elsewhere. -/
theorem stoppedStepHasNoPartialEffect : Obligations.StoppedStepHasNoPartialEffect := by
  refine ⟨fun s t hrun h hstop => ?_, fun _ _ _ => exec_stoppedBy_of_halted⟩
  have hpc : t.stopCause ≠ .fetchBounds → s.advance.pc.toNat = s.pc.toNat + 2 :=
    fun hc => advance_pc_toNat s (fetch_inside_of_stopCause_ne hrun h hc)
  obtain rfl | rfl | rfl := step_stop_cases hrun h hstop
  · exact ⟨fun _ => rfl, fun _ => rfl, fun _ => rfl, fun hc => absurd rfl hc⟩
  · exact ⟨fun _ => rfl, fun _ => rfl, fun hc => by simp at hc, hpc⟩
  · exact ⟨fun _ => rfl, fun _ => rfl, fun hc => by simp at hc, hpc⟩

/-- Settles O21: the last step of the run stops it by one of the three causes, and reports its own address. -/
theorem endedRunsStopByOneOfThreeCauses : Obligations.EndedRunsStopByOneOfThreeCauses := by
  refine fun s hrun => ⟨fun t hreach hstop => ?_, fun t hreach hstop => ?_⟩ <;>
    obtain ⟨u, hu, hstep⟩ := exists_stopping_step hrun hreach hstop
  · obtain rfl | rfl | rfl := step_stop_cases hu hstep hstop <;> simp
  · exact ⟨u.pc, finalPcIsTheStoppingInstruction.1 u t hu hstep hstop⟩

end Sys2Proof.Machine
end

section
/-! SUPPORT. What reset and construction leave, the load of an image by its length, the hexadecimal digits, and the bytes
of the first line of a program text. -/

namespace Sys2Proof.Machine

/-! ## Reset and construction (70_reset_and_hazards.md R230) -/

theorem Memory.write_resetMem (m : Memory) (a : Nat) : m.write a Config.resetMem = m.erase a := if_pos rfl

/-- Writing what an unlisted cell reads as lists no cell. -/
theorem Memory.writeBytes_nil_replicate_resetMem (base n : Nat) :
    Memory.writeBytes [] base (List.replicate n Config.resetMem) = [] := by
  induction n generalizing base with
  | zero => rfl
  | succ n ih =>
    rw [List.replicate_succ, Memory.writeBytes, Memory.write_resetMem]
    exact ih (base + 1)

theorem Memory.filled_resetMem : Memory.filled Config.resetMem = [] :=
  Memory.writeBytes_nil_replicate_resetMem 0 Config.memSize

theorem construct_resetReg_resetMem : State.construct Config.resetReg Config.resetMem = State.reset := by
  rw [State.construct, Memory.filled_resetMem, State.reset]

theorem construct_reg (regFill memFill : Byte) {q : Nat} (h : q < Config.nreg) :
    (State.construct regFill memFill).reg q = regFill := by
  rw [State.reg, State.construct, Vector.getElem?_replicate, if_pos h, Option.getD_some]

/-! ## The load of an image (R233, R237) -/

theorem loadImage_of_le {image : List Byte} (h : image.length ≤ Config.memSize) (s : State) :
    loadImage image s = { error := none, state := { s with mem := s.mem.writeBytes Config.imageBase image } } :=
  if_pos h

theorem loadImage_of_gt {image : List Byte} (h : Config.memSize < image.length) (s : State) :
    loadImage image s = { error := some .imageTooLong, state := s } :=
  if_neg (Nat.not_le.2 h)

/-! ## Hexadecimal digits (R234) -/

/-- The character codes of the three runs of digits, each a constant above the values. -/
theorem toNat_of_hexDigit {c : Char} {v : Nibble} (h : hexDigit c = some v) :
    (v.toNat < 10 ∧ c.toNat = 48 + v.toNat) ∨
    (10 ≤ v.toNat ∧ (c.toNat = 55 + v.toNat ∨ c.toNat = 87 + v.toNat)) := by
  simp only [hexDigit] at h
  split_ifs at h <;> cases h <;> rw [BitVec.toNat_ofNat] <;> omega

theorem hexDigit_cases {c : Char} {v : Nibble} (h : hexDigit c = some v) :
    (v.toNat < 10 ∧ c = Char.ofNat (48 + v.toNat)) ∨
    (10 ≤ v.toNat ∧ (c = Char.ofNat (55 + v.toNat) ∨ c = Char.ofNat (87 + v.toNat))) := by
  have hchar : ∀ {n : Nat}, c.toNat = n → c = Char.ofNat n := fun e => e ▸ (Char.ofNat_toNat c).symm
  exact (toNat_of_hexDigit h).imp (And.imp_right hchar) (And.imp_right (Or.imp hchar hchar))

/-- Membership in a list that pairs digits with their values gives the digit's value. -/
theorem hexDigit_of_mem {digits : List (Char × Nat)} {c : Char} {v : Nibble} (h : (c, v.toNat) ∈ digits)
    (hdigits : ∀ d ∈ digits, hexDigit d.1 = some (BitVec.ofNat 4 d.2)) : hexDigit c = some v := by
  rw [hdigits _ h, BitVec.ofNat_toNat, BitVec.setWidth_eq]

/-! ## The first line of a text (R234) -/

/-- A character that ends no line goes in front of the first line. -/
theorem FirstLine.cons {c : Char} {line rest cs : List Char} (hlf : c ≠ '\n')
    (hcr : c = '\r' → cs.head? ≠ some '\n') (h : FirstLine line rest cs) :
    FirstLine (c :: line) rest (c :: cs) := by
  obtain ⟨hline, h⟩ := h
  refine ⟨List.not_mem_cons_of_ne_of_not_mem hlf.symm hline, ?_⟩
  obtain rfl | ⟨rfl, hlast⟩ | ⟨rfl, rfl⟩ := h
  · exact .inl rfl
  · refine .inr (.inl ⟨rfl, ?_⟩)
    cases line with
    | nil => exact fun e => hcr (Option.some.inj e) rfl
    | cons d ds => rwa [List.getLast?_cons_cons]
  · exact .inr (.inr ⟨rfl, rfl⟩)

theorem exists_firstLine (text : List Char) : ∃ line rest, FirstLine line rest text := by
  induction text with
  | nil => exact ⟨[], [], List.not_mem_nil, .inr (.inr ⟨rfl, rfl⟩)⟩
  | cons c cs ih =>
    by_cases hlf : c = '\n'
    · exact ⟨[], cs, List.not_mem_nil, .inr (.inl ⟨hlf ▸ rfl, nofun⟩)⟩
    by_cases hcrlf : c = '\r' ∧ cs.head? = some '\n'
    · obtain ⟨rfl, hhead⟩ := hcrlf
      obtain ⟨ds, rfl⟩ := List.head?_eq_some_iff.1 hhead
      exact ⟨[], ds, List.not_mem_nil, .inl rfl⟩
    · obtain ⟨line, rest, h⟩ := ih
      exact ⟨c :: line, rest, h.cons hlf fun hc hhead => hcrlf ⟨hc, hhead⟩⟩

/-! ## The bytes of a line (R233 to R236) -/

theorem bytesOfLine_of_digits {c0 c1 c2 c3 : Char} {d0 d1 d2 d3 : Nibble} (h0 : hexDigit c0 = some d0)
    (h1 : hexDigit c1 = some d1) (h2 : hexDigit c2 = some d2) (h3 : hexDigit c3 = some d3) :
    bytesOfLine [c0, c1, c2, c3] = .ok [d0 ++ d1, d2 ++ d3] := by
  simp only [bytesOfLine, h0, h1, h2, h3]

theorem bytesOfLine_of_length_ne_four {line : List Char} (h : line.length ≠ 4) :
    bytesOfLine line = .error .wrongLength := by
  unfold bytesOfLine
  split
  · exact absurd rfl h
  · rfl

theorem bytesOfLine_of_not_digit {line : List Char} (hlen : line.length = 4)
    (hbad : ∃ c ∈ line, hexDigit c = none) : bytesOfLine line = .error .nonHex := by
  obtain ⟨c0, c1, c2, c3, rfl⟩ := List.length_eq_four.1 hlen
  unfold bytesOfLine
  dsimp only
  split
  · next h0 h1 h2 h3 => simp [h0, h1, h2, h3] at hbad
  · rfl

/-- A blank first line gives nothing (R235). -/
theorem imageOfText_of_blank {rest text : List Char} (h : FirstLine [] rest text) :
    imageOfText text = imageOfText rest := by
  obtain ⟨ls, htext, hrest⟩ := linesOf_firstLine h
  rw [imageOfText, htext, imageOfLines, hrest]

/-- A first line that is not blank puts its bytes in front of what the rest gives, and a failure of either is that of
the whole, the line's first (R236). -/
theorem imageOfText_of_ne_nil {line rest text : List Char} (h : FirstLine line rest text) (hline : line ≠ []) :
    imageOfText text = (bytesOfLine line).bind fun bs => (imageOfText rest).map (bs ++ ·) := by
  obtain ⟨ls, htext, hrest⟩ := linesOf_firstLine h
  rw [imageOfText, htext, imageOfLines_cons ls hline, hrest]
  cases bytesOfLine line <;> rfl

theorem imageOfText_of_malformed {line rest text : List Char} {e : LoadError} (h : FirstLine line rest text)
    (hline : line ≠ []) (hbytes : bytesOfLine line = .error e) : imageOfText text = .error e := by
  rw [imageOfText_of_ne_nil h hline, hbytes]
  rfl

end Sys2Proof.Machine
end

section
/-! SUPPORT. The proofs of the statements about reset and the load of a program (70_reset_and_hazards.md). -/

namespace Sys2Proof.Machine

/-- Settles O47: what an image that fits leaves is said field by field, and one that does not fit leaves the state it was
given. -/
theorem imageIsPlacedWholeOrNotAtAll : Obligations.ImageIsPlacedWholeOrNotAtAll := by
  refine ⟨fun image s hfits => ⟨?_, loadImage_cell image s hfits, fun q => ?_, loadImage_pc image s,
    loadImage_halted image s, loadImage_stopCause image s⟩, fun image s hlong => ?_⟩
  · rw [loadImage_of_le hfits]
  · rw [State.reg, loadImage_regs, State.reg]
  · rw [loadImage_of_gt hlong]
    exact ⟨rfl, rfl⟩

/-- Settles O48: the first line gives nothing where it is blank, and elsewhere what `bytesOfLine` makes of it comes
first. -/
theorem eachTextLineGivesTwoBytes : Obligations.EachTextLineGivesTwoBytes := by
  refine ⟨exists_firstLine, rfl, fun line rest text h => ⟨?_, ?_, fun hline hlen => ?_, fun hlen hbad => ?_⟩⟩
  · rintro rfl
    exact imageOfText_of_blank h
  · rintro c0 c1 c2 c3 d0 d1 d2 d3 rfl h0 h1 h2 h3
    rw [imageOfText_of_ne_nil h (List.cons_ne_nil _ _), bytesOfLine_of_digits h0 h1 h2 h3]
    rfl
  · exact imageOfText_of_malformed h hline (bytesOfLine_of_length_ne_four hlen)
  · have hline : line ≠ [] := List.ne_nil_of_length_eq_add_one hlen
    exact imageOfText_of_malformed h hline (bytesOfLine_of_not_digit hlen hbad)

/-- Settles O49: whether a file fails to load does not depend on the state, so `boot` has the answer of every load. -/
theorem failedLoadLeavesTheState : Obligations.FailedLoadLeavesTheState := by
  refine ⟨fun file s hfail => ?_, fun s => ?_, fun file s hok => ?_⟩
  · obtain ⟨e, hload⟩ | ⟨_, _, -, -, -, hload⟩ := loadFile_cases file
    · rw [boot, hload, hload]
      exact ⟨rfl, rfl⟩
    · rw [hload] at hfail
      exact absurd rfl hfail
  · rw [loadFile_unreadable]
    exact nofun
  · obtain ⟨e, hload⟩ | ⟨text, image, hfile, himage, hfits, hload⟩ := loadFile_cases file
    · rw [hload] at hok
      cases hok
    · have hplace : ∀ u, loadFile file u = loadImage image u :=
        fun u => (hload u).trans (loadImage_of_le hfits u).symm
      refine ⟨text, image, hfile, himage, hplace s, ?_⟩
      rw [boot, hload, ← hplace, hload]

/-- Settles O19: reset is construction with 0x00 for both fill values, which gives them to every register and cell. -/
theorem resetStateHoldsTheResetValues : Obligations.ResetStateHoldsTheResetValues := by
  refine ⟨fun q hq => ?_, fun a ha => ?_, rfl, rfl, rfl, construct_resetReg_resetMem⟩
  · rw [regGet_eq, if_pos hq, ← construct_resetReg_resetMem, construct_reg _ _ hq]
  · rw [memRead_eq, if_pos ha, ← construct_resetReg_resetMem, construct_cell _ _ ha]

/-- Settles O50: a digit lies in one of the three runs, which the lists write out, and each listed character has its
value. -/
theorem hexDigitsHaveTheirValues : Obligations.HexDigitsHaveTheirValues := by
  refine fun c v => ⟨fun h => ?_, fun h => ?_⟩
  · obtain ⟨hv, rfl⟩ | ⟨hv, rfl | rfl⟩ := hexDigit_cases h <;> revert v <;> decide
  · obtain h | h := h <;> exact hexDigit_of_mem h (by decide)

end Sys2Proof.Machine
end

section
/-! SUPPORT. Decoding and encoding undo each other (30_encoding.md R80 to R91): a word's fields are read back from the
nibbles of its encoding, and a decoded word is put together from the nibbles it was read from. -/

namespace Sys2Proof

/-! ## Words in the shapes the encoder writes -/

/-- A row that keeps the twelve bits below its opcode (R89). -/
theorem decodeWord_append_twelve {o : Nibble} {f : BitVec 12 → Instr}
    (h : ∀ a b c : Nibble, decodeWord (o ++ a ++ b ++ c) = f (a ++ b ++ c)) (x : BitVec 12) :
    decodeWord (o ++ x) = f x := by
  obtain ⟨a, b, c, rfl⟩ := twelve_eq_nibbles x
  rw [append_twelve]
  exact h a b c

/-- A row of one register and a byte, the address field (R83). -/
theorem decodeWord_append_register_byte {o : Nibble} {f : Nat → Byte → Instr}
    (h : ∀ a b c : Nibble, decodeWord (o ++ a ++ b ++ c) = f a.toNat (b ++ c)) {r : Nat} (hr : r < Config.nreg)
    (v : Byte) : decodeWord (o ++ regField r ++ v) = f r v := by
  obtain ⟨b, c, rfl⟩ := byte_eq_nibbles v
  rw [append_byte, h, regField_toNat hr]

/-- A row of one register and the address of a cell (R83). -/
theorem decodeWord_append_register_address {o : Nibble} {f : Nat → Nat → Instr}
    (h : ∀ a b c : Nibble, decodeWord (o ++ a ++ b ++ c) = f a.toNat (b ++ c).toNat) {r a : Nat}
    (hra : r < Config.nreg ∧ a < Config.memSize) :
    decodeWord (o ++ regField r ++ BitVec.ofNat 8 a) = f r a := by
  obtain ⟨hr, ha⟩ := hra
  rw [decodeWord_append_register_byte (f := fun r v => f r v.toNat) h hr, BitVec.toNat_ofNat, Nat.mod_eq_of_lt ha]

/-- A row of three registers (R81). -/
theorem decodeWord_append_registers {o : Nibble} {f : Nat → Nat → Nat → Instr}
    (h : ∀ a b c : Nibble, decodeWord (o ++ a ++ b ++ c) = f a.toNat b.toNat c.toNat) {r s t : Nat}
    (hrst : r < Config.nreg ∧ s < Config.nreg ∧ t < Config.nreg) :
    decodeWord (o ++ regField r ++ regField s ++ regField t) = f r s t := by
  obtain ⟨hr, hs, ht⟩ := hrst
  rw [h, regField_toNat hr, regField_toNat hs, regField_toNat ht]

/-! ## The two round trips -/

/-- Within the bounds no field is cut by its width, so each is read back (R81). -/
theorem decodeWord_encodeWord {i : Instr} (h : i.wellFormed = true) : decodeWord (encodeWord i) = i := by
  rw [Instr.wellFormed_iff] at h
  cases i <;> simp only [Instr.registers, Instr.addresses, List.forall_mem_cons, List.not_mem_nil, false_imp_iff,
    implies_true, and_true] at h
  case unknown0 x => exact decodeWord_append_twelve (decodeWord_nibbles 0x0#4) x
  case load r a => exact decodeWord_append_register_address (decodeWord_nibbles 0x1#4) h
  case loadi r v => exact decodeWord_append_register_byte (decodeWord_nibbles 0x2#4) h v
  case store r a => exact decodeWord_append_register_address (decodeWord_nibbles 0x3#4) h
  case move x s t =>
    obtain ⟨hs, ht⟩ := h
    simp [encodeWord, decodeWord_nibbles, regField_toNat hs, regField_toNat ht]
  case add r s t => exact decodeWord_append_registers (decodeWord_nibbles 0x5#4) h
  case add6 r s t => exact decodeWord_append_registers (decodeWord_nibbles 0x6#4) h
  case or r s t => exact decodeWord_append_registers (decodeWord_nibbles 0x7#4) h
  case and r s t => exact decodeWord_append_registers (decodeWord_nibbles 0x8#4) h
  case xor r s t => exact decodeWord_append_registers (decodeWord_nibbles 0x9#4) h
  case rotate r n x => simp [encodeWord, decodeWord_nibbles, regField_toNat h]
  case brz r a => exact decodeWord_append_register_byte (decodeWord_nibbles 0xB#4) h a
  case halt x => exact decodeWord_append_twelve (decodeWord_nibbles 0xC#4) x
  case unknownD x => exact decodeWord_append_twelve (decodeWord_nibbles 0xD#4) x
  case unknownE x => exact decodeWord_append_twelve (decodeWord_nibbles 0xE#4) x
  case unknownF x => exact decodeWord_append_twelve (decodeWord_nibbles 0xF#4) x

/-- The instruction's opcode names the row, and the row keeps every bit below the opcode (R88, R89). -/
theorem encodeWord_decodeWord (w : Word) : encodeWord (decodeWord w) = w := by
  have hw := word_eq_fields w
  have hop := decodeWord_opcode w
  generalize opField w = o, rField w = a, sField w = b, tField w = c at hw hop
  subst hw
  rw [decodeWord_nibbles] at hop ⊢
  revert hop
  split <;> rintro rfl <;>
    simp only [encodeWord, Instr.opcode, regField_of_toNat, BitVec.ofNat_toNat, BitVec.setWidth_eq, append_byte,
      append_twelve]
  all_goals rfl

/-- Decoding takes the two bytes of a word and leaves the rest (R80, R91). -/
theorem decode_bytesOfWord (w : Word) (rest : List Byte) : decode (bytesOfWord w ++ rest) = .ok (decodeWord w, rest) := by
  show Except.ok (decodeWord (highByte w ++ lowByte w), rest) = _
  rw [highByte_append_lowByte]

theorem exists_decode_eq_ok {bs : List Byte} (h : 2 ≤ bs.length) : ∃ i, decode bs = .ok (i, bs.drop 2) := by
  match bs with
  | first :: second :: rest => exact ⟨_, rfl⟩

theorem decode_eq_truncated {bs : List Byte} (h : bs.length < 2) : decode bs = .error .truncated := by
  match bs with
  | [] => rfl
  | [_] => rfl

end Sys2Proof
end

section
/-! SUPPORT. The proofs of the statements about encoding (30_encoding.md). -/

namespace Sys2Proof

/-- Settles O1: decoding takes the two bytes of the encoded word, whose fields are those of the instruction. -/
theorem encodedInstructionDecodesBack : Obligations.EncodedInstructionDecodesBack := by
  intro i rest h
  rw [encode, decode_bytesOfWord, decodeWord_encodeWord h]

/-- Settles O2: every field of a word is as wide as the operand it holds, and no row drops a bit. -/
theorem decodedWordEncodesBack : Obligations.DecodedWordEncodesBack :=
  fun w => ⟨decodeWord_wellFormed w, decodeWord_opcode w, encodeWord_decodeWord w⟩

/-- Settles O3: each word read nibble by nibble. -/
theorem spelledOutWordsDecode : Obligations.SpelledOutWordsDecode :=
  ⟨decodeWord_nibbles 0x1 0x2 0xA 0xB, decodeWord_nibbles 0x2 0x0 0xF 0xF, decodeWord_nibbles 0x3 0x1 0x0 0x6,
    decodeWord_nibbles 0x4 0xF 0x1 0x2, decodeWord_nibbles 0x5 0x1 0x3 0x4, decodeWord_nibbles 0x6 0x1 0x3 0x4,
    decodeWord_nibbles 0x7 0x4 0x1 0x2, decodeWord_nibbles 0x8 0x3 0x1 0x2, decodeWord_nibbles 0x9 0x5 0x1 0x2,
    decodeWord_nibbles 0xA 0x1 0x3 0x0, decodeWord_nibbles 0xB 0x1 0x1 0x2, decodeWord_nibbles 0xC 0x0 0x0 0x0,
    decodeWord_nibbles 0x0 0x0 0x0 0x0, decodeWord_nibbles 0xD 0x0 0x0 0x0, decodeWord_nibbles 0xE 0x1 0x2 0x3,
    decodeWord_nibbles 0xF 0xF 0xF 0xF⟩

/-- Settles O4: the encoder writes one word, and the decoder's equations split at two bytes. -/
theorem everyInstructionIsTwoBytes : Obligations.EveryInstructionIsTwoBytes :=
  ⟨fun _ => rfl, fun _ => exists_decode_eq_ok, fun _ => decode_eq_truncated⟩

end Sys2Proof
end

section
/-! SUPPORT. Which register a step changes (10_state.md R23): the destination of its instruction, as a field of the word. -/

namespace Sys2Proof

theorem tField_bytes (first second : Byte) : (tField (first ++ second)).toNat = second.toNat % 16 := by
  have hfield : tField (first ++ second) = second.extractLsb' 0 4 := by
    apply BitVec.eq_of_getLsbD_eq
    intro i hi
    simp only [tField, BitVec.getLsbD_append, BitVec.getLsbD_extractLsb']
    interval_cases i <;> rfl
  rw [hfield, BitVec.extractLsb'_toNat, Nat.shiftRight_zero]

/-- The destination of a decoded word is its `t` field for MOVE and its `r` field for every other row that has one
(30_encoding.md R88). -/
theorem destination_decodeWord {w : Word} {q : Nat} (h : (decodeWord w).destination = some q) :
    ((opField w).toNat ∈ [0x1, 0x2, 0x5, 0x6, 0x7, 0x8, 0x9, 0xA] ∧ q = (rField w).toNat) ∨
    ((opField w).toNat = 0x4 ∧ q = (tField w).toNat) := by
  unfold decodeWord at h
  split at h <;> cases h
  case h_5 hop => exact .inr ⟨hop, rfl⟩
  all_goals exact .inl ⟨by simp [*], rfl⟩

namespace Machine

/-- An instruction that changes a register has it as its destination. -/
theorem exec_destination_of_reg_ne {i : Instr} {s t : State} {q : Nat} (h : exec i s = .next t)
    (hne : t.reg q ≠ s.reg q) : i.destination = some q := by
  have heffect := exec_effect i s
  rw [h] at heffect
  cases heffect with
  | @registerWritten r v hr hd =>
    by_cases hq : q = r
    · rw [hq, hd]
    · exact absurd (by rw [reg_set, if_neg hq]) hne
  | cellWritten hr ha hstore => exact absurd rfl hne
  | branched hr hbrz hz => exact absurd rfl hne
  | notBranched hr hbrz hz => exact absurd rfl hne
  | halt hhalt => exact absurd rfl hne
  | unknownOpcode hop => exact absurd rfl hne
  | dataBounds hbad => exact absurd rfl hne

end Machine

end Sys2Proof
end

section
/-! SUPPORT. Rotations one after the other (42_alu.md R145, R153): the amounts add up modulo 8. -/

namespace Sys2Proof.Machine

theorem RegisterWritten.refl (s : State) (r : Nat) : RegisterWritten s s r (s.reg r) :=
  ⟨rfl, fun _ _ => rfl, fun _ => rfl, rfl, rfl, rfl⟩

/-- The second of two writes of one register is all that is left of them. -/
theorem RegisterWritten.trans {s t u : State} {r : Nat} {v w : Byte} (h : RegisterWritten s t r v)
    (h' : RegisterWritten t u r w) : RegisterWritten s u r w := by
  obtain ⟨-, hregs, hcells, hpc, hhalted, hcause⟩ := h
  obtain ⟨hval, hregs', hcells', hpc', hhalted', hcause'⟩ := h'
  exact ⟨hval, fun q hq => (hregs' q hq).trans (hregs q hq), fun a => (hcells' a).trans (hcells a), hpc'.trans hpc,
    hhalted'.trans hhalted, hcause'.trans hcause⟩

/-- ROTATEs of one register by several amounts leave in it what the ALU makes of the amounts in turn. -/
theorem execAll_rotate {r : Nat} (hr : r < Config.nreg) (x : Nibble) (amounts : List Nibble) (st : State) :
    ∃ u, execAll (amounts.map fun n => .rotate r n x) st = .next u ∧
      RegisterWritten st u r (amounts.foldl aluRotr (st.reg r)) := by
  induction amounts generalizing st with
  | nil => exact ⟨st, rfl, .refl st r⟩
  | cons n amounts ih =>
    obtain ⟨t, hexec, hwrite⟩ := exec_rotate_registerWritten hr n x st
    obtain ⟨u, hrest, hwrite'⟩ := ih t
    rw [hwrite.1] at hwrite'
    exact ⟨u, (execAll_cons_of_next hexec _).trans hrest, hwrite.trans hwrite'⟩

theorem foldl_aluRotr_getLsbD (amounts : List Nibble) (v : Byte) {i : Nat} (hi : i < 8) :
    (amounts.foldl aluRotr v).getLsbD i = v.getLsbD ((i + (amounts.map BitVec.toNat).sum) % 8) := by
  induction amounts generalizing v with
  | nil => simp [Nat.mod_eq_of_lt hi]
  | cons n amounts ih =>
    rw [List.foldl_cons, ih, aluRotr_getLsbD v n (Nat.mod_lt _ (by decide)), List.map_cons, List.sum_cons,
      rotateAmount, Config.rotMod]
    congr 1
    omega

/-- Amounts that add up to whole turns give the value back. -/
theorem foldl_aluRotr_of_whole_turns {amounts : List Nibble} (h : 8 ∣ (amounts.map BitVec.toNat).sum) (v : Byte) :
    amounts.foldl aluRotr v = v := by
  apply BitVec.eq_of_getLsbD_eq
  intro i hi
  rw [foldl_aluRotr_getLsbD amounts v hi]
  congr 1
  omega

theorem execAll_rotate_of_whole_turns {r : Nat} (hr : r < Config.nreg) (x : Nibble) {amounts : List Nibble}
    (h : 8 ∣ (amounts.map BitVec.toNat).sum) (st : State) :
    ∃ u, execAll (amounts.map fun n => .rotate r n x) st = .next u ∧ RegisterWritten st u r (st.reg r) := by
  obtain ⟨u, hexec, hwrite⟩ := execAll_rotate hr x amounts st
  rw [foldl_aluRotr_of_whole_turns h] at hwrite
  exact ⟨u, hexec, hwrite⟩

end Sys2Proof.Machine
end

section
/-! SUPPORT. A canonical memory is settled by what it reads (log entry 14): its entries are the addresses that read as
something else than `RESET_MEM`, in rising order. -/

namespace Sys2Proof.Machine

/-- The entries of a memory with rising addresses read back. -/
theorem Memory.read_of_mem {m : Memory} (h : m.Pairwise fun c d => c.1 < d.1) {c : Host.Cell} (hc : c ∈ m) :
    m.read c.1 = c.2 := by
  induction m with
  | nil => cases hc
  | cons d m ih =>
    obtain ⟨hlt, hm⟩ := List.pairwise_cons.1 h
    obtain rfl | hc := List.mem_cons.1 hc
    · exact if_pos rfl
    · exact (if_neg (hlt c hc).ne').trans (ih hm hc)

/-- What reads as something else than `RESET_MEM` is listed. -/
theorem Memory.mem_of_read_ne {m : Memory} {a : Nat} (h : m.read a ≠ Config.resetMem) : (a, m.read a) ∈ m := by
  induction m with
  | nil => exact absurd rfl h
  | cons d m ih =>
    obtain ⟨b, w⟩ := d
    by_cases hab : a = b
    · rw [Memory.read, if_pos hab, hab]
      exact List.mem_cons_self
    · rw [Memory.read, if_neg hab] at h ⊢
      exact List.mem_cons_of_mem _ (ih h)

theorem Memory.mem_iff {m : Memory} (h : m.wf) (c : Host.Cell) :
    c ∈ m ↔ m.read c.1 = c.2 ∧ c.2 ≠ Config.resetMem := by
  obtain ⟨hrising, hentries⟩ := h
  refine ⟨fun hc => ⟨Memory.read_of_mem hrising hc, (hentries c hc).2⟩, fun ⟨hread, hne⟩ => ?_⟩
  rw [← hread] at hne
  have hmem := Memory.mem_of_read_ne hne
  rwa [hread] at hmem

end Sys2Proof.Machine
end

section
/-! SUPPORT. The proofs of the statements about registers, construction, rotations and the canonical form of storage. -/

namespace Sys2Proof.Machine

/-- Settles O12: a halted state and a failed fetch keep every register, and an instruction changes its destination only,
which is a field of its word. -/
theorem registersChangeOnlyAsDestination : Obligations.RegistersChangeOnlyAsDestination := by
  intro s t q h hne
  rcases step_cases s with ⟨_, hstep⟩ | ⟨_, _, hstep⟩ | ⟨hrun, _, hstep⟩ <;> rw [hstep] at h
  · cases h
    exact absurd rfl hne
  · cases h
    exact absurd rfl hne
  · have hdest := destination_decodeWord (exec_destination_of_reg_ne h hne)
    rw [opField_bytes, rField_bytes, tField_bytes] at hdest
    exact ⟨hrun, hdest⟩

/-- Settles O20: what construction leaves in registers and cells, seen through the bounds checks of the two reads. -/
theorem constructionFillsRegistersAndCells : Obligations.ConstructionFillsRegistersAndCells := by
  refine fun regFill memFill => ⟨fun q hq => ?_, fun a ha => ?_, rfl, rfl, rfl⟩
  · rw [regGet_eq, if_pos hq, construct_reg _ _ hq]
  · rw [memRead_eq, if_pos ha, construct_cell _ _ ha]

/-- Settles O37: eight times 1, and `k` with `8 - k`, are one whole turn. -/
theorem rotationsReturnTheRegister : Obligations.RotationsReturnTheRegister := by
  refine ⟨fun st r x hr => ?_, fun st r k x hr hk => ?_⟩
  · exact execAll_rotate_of_whole_turns hr x (amounts := List.replicate 8 1) (by decide) st
  · refine execAll_rotate_of_whole_turns hr x (amounts := [BitVec.ofNat 4 k, BitVec.ofNat 4 (8 - k)]) ?_ st
    simp only [List.map_cons, List.map_nil, List.sum_cons, List.sum_nil, BitVec.toNat_ofNat]
    omega

/-- Settles O43: memories that read alike have the same entries, and rising addresses leave one order for them. -/
theorem canonicalMemoriesThatReadAlikeAreEqual : Obligations.CanonicalMemoriesThatReadAlikeAreEqual := by
  intro m n hm hn hread
  have ⟨hrising, _⟩ := hm
  have ⟨hrising', _⟩ := hn
  have hentries : ∀ c, c ∈ m ↔ c ∈ n := fun c => by rw [Memory.mem_iff hm, Memory.mem_iff hn, hread]
  have hasymm : Std.Asymm fun c d : Host.Cell => c.1 < d.1 := ⟨fun _ _ => Nat.lt_asymm⟩
  exact List.Pairwise.eq_of_mem_iff hrising hrising' hentries

end Sys2Proof.Machine
end
